-- ==== Sys2Proof/Word.lean ====
section
/-! DEFINITION. The data the T5U handles: raw words, bytes, command frames, the sponge registers and the two domains
(00_scope.md R9; 10_state.md R12, R13; 30_encoding.md R45, R47). -/

namespace Sys2Proof

/-- A 64-bit word: a raw (Montgomery-domain) word, an integer operand or a header (10_state.md R13, 20_memory.md R33). -/
abbrev Word := BitVec 64

/-- A byte of a raw word, the operand of the byte S-box (20_memory.md R32). -/
abbrev Byte := BitVec 8

/-- A command frame: one header word and its payload words (30_encoding.md R45). The empty list is no frame (R51). -/
structure Frame where
  /-- The header word `hdr`. -/
  hdr : Word
  /-- The payload words `pay[0] .. pay[npay-1]`. -/
  pay : List Word
  deriving DecidableEq, Repr

/-- The sixteen state registers `S[0]` to `S[15]`; `S[0..9]` is the rate part, `S[10..15]` the capacity part
(10_state.md R12). -/
abbrev Sponge := Vector Word 16

/-- The operand of ABSORB and HASH10: as many words as the rate part (30_encoding.md R47). -/
abbrev Block := Vector Word 10

/-- A digest: an ordered list of 5 raw words (10_state.md R15). -/
abbrev Digest := Vector Word 5

/-- The two domains of INIT (30_encoding.md R47). -/
inductive Domain where
  /-- `D = 0`, the variable-length domain. -/
  | variableLength
  /-- `D = 1`, the fixed-length domain. -/
  | fixedLength
  deriving DecidableEq, Repr

end Sys2Proof
end

