-- ==== Sys2Proof/Syntax.lean ====
section
/-! DEFINITION. The 22 commands of the T5U with their operands (30_encoding.md R47, R49). -/

namespace Sys2Proof

/-- A decoded command: one constructor per row of spec/opcode_table.json, in the table's order. -/
inductive Instr where
  /-- FROMINT v (40_field_unit.md R68). -/
  | fromint (v : Word)
  /-- CANON a (R69). -/
  | canon (a : Word)
  /-- MONTRED lo, hi: the 128-bit operand, low word first (R70). -/
  | montred (lo hi : Word)
  /-- ADD a, b (R71). -/
  | add (a b : Word)
  /-- SUB a, b (R72). -/
  | sub (a b : Word)
  /-- MUL a, b (R73). -/
  | mul (a b : Word)
  /-- NEG a (R74). -/
  | neg (a : Word)
  /-- INV a (R75). -/
  | inv (a : Word)
  /-- DIV a, b (R77). -/
  | div (a b : Word)
  /-- INIT D (41_permutation_engine.md R100). -/
  | init (d : Domain)
  /-- PERMUTE (R111). -/
  | permute
  /-- TRACE (R112). -/
  | trace
  /-- RDSTATE (R113). -/
  | rdstate
  /-- RDDIGEST (R114). -/
  | rddigest
  /-- ABSORB b0, …, b9 (42_sponge_controller.md R130). -/
  | absorb (b : Block)
  /-- SQUEEZE (R131). -/
  | squeeze
  /-- PUSH w (R136). -/
  | push (w : Word)
  /-- FINISH (R137). -/
  | finish
  /-- ABSORBALL x0, …, x(n-1) (R138). -/
  | absorball (x : List Word)
  /-- HASH10 b0, …, b9 (R143). -/
  | hash10 (b : Block)
  /-- HASHPAIR a0..a4, b0..b4 (R145). -/
  | hashpair (a b : Digest)
  /-- HASHVARLEN x0, …, x(n-1) (R147). -/
  | hashvarlen (x : List Word)
  deriving DecidableEq, Repr

end Sys2Proof
end

