-- ==== Sys2Proof/WellFormed.lean ====
section
/-! DEFINITION. Which decoded commands a frame can carry. Operand counts are fixed by the constructors' types; the one check
left is that the length of a sequence fits the 32-bit `LEN` field (30_encoding.md R46). -/

namespace Sys2Proof

/-- The command can be written as a frame: a sequence operand has `0 ≤ n ≤ 2^32 - 1` words (30_encoding.md R46, R50). -/
def Instr.wf : Instr → Bool
  | .fromint _ => true
  | .canon _ => true
  | .montred _ _ => true
  | .add _ _ => true
  | .sub _ _ => true
  | .mul _ _ => true
  | .neg _ => true
  | .inv _ => true
  | .div _ _ => true
  | .init _ => true
  | .permute => true
  | .trace => true
  | .rdstate => true
  | .rddigest => true
  | .absorb _ => true
  | .squeeze => true
  | .push _ => true
  | .finish => true
  | .absorball x => decide (x.length < 2 ^ 32)
  | .hash10 _ => true
  | .hashpair _ _ => true
  | .hashvarlen x => decide (x.length < 2 ^ 32)

end Sys2Proof
end

