-- ==== Sys2Proof/Decode.lean ====
section
/-! DEFINITION. From frames to commands and back (30_encoding.md). Decoding is total and rejects by name: any frame is one of
a command, `E_ILLEGAL` or `E_LENGTH` (R51). The encoder stands after it. -/

namespace Sys2Proof

/-- The names of the opcode map (30_encoding.md R49), without operands. -/
inductive Opcode where
  | fromint | canon | montred | add | sub | mul | neg | inv | div
  | init | permute | trace | rdstate | rddigest
  | absorb | squeeze | push | finish | absorball | hash10 | hashpair | hashvarlen
  deriving DecidableEq, Repr

/-- Why a frame is not a command (30_encoding.md R50). -/
inductive DecodeError where
  /-- The header is not legal: fault `E_ILLEGAL`. -/
  | illegal
  /-- The header is legal and the payload count is wrong: fault `E_LENGTH`. -/
  | length
  deriving DecidableEq, Repr

/-- Field `OPC`, bits 7:0 of the header (30_encoding.md R46). -/
def opcField (hdr : Word) : BitVec 8 := hdr.extractLsb' 0 8

/-- Field `ARG`, bits 15:8 (R46). -/
def argField (hdr : Word) : BitVec 8 := hdr.extractLsb' 8 8

/-- Field `RSV`, bits 31:16 (R46). -/
def rsvField (hdr : Word) : BitVec 16 := hdr.extractLsb' 16 16

/-- Field `LEN`, bits 63:32 (R46). -/
def lenField (hdr : Word) : BitVec 32 := hdr.extractLsb' 32 32

/-- The opcode map (30_encoding.md R49). -/
def Opcode.code : Opcode → BitVec 8
  | .fromint => 0x01
  | .canon => 0x02
  | .montred => 0x03
  | .add => 0x04
  | .sub => 0x05
  | .mul => 0x06
  | .neg => 0x07
  | .inv => 0x08
  | .div => 0x09
  | .init => 0x10
  | .permute => 0x11
  | .trace => 0x12
  | .rdstate => 0x13
  | .rddigest => 0x14
  | .absorb => 0x20
  | .squeeze => 0x21
  | .push => 0x22
  | .finish => 0x23
  | .absorball => 0x24
  | .hash10 => 0x28
  | .hashpair => 0x29
  | .hashvarlen => 0x2A

/-- The opcode map read backwards; all other 234 values of `OPC` name no command (30_encoding.md R49, R50). -/
def opcodeOf (c : BitVec 8) : Option Opcode :=
  match c.toNat with
  | 0x01 => some .fromint
  | 0x02 => some .canon
  | 0x03 => some .montred
  | 0x04 => some .add
  | 0x05 => some .sub
  | 0x06 => some .mul
  | 0x07 => some .neg
  | 0x08 => some .inv
  | 0x09 => some .div
  | 0x10 => some .init
  | 0x11 => some .permute
  | 0x12 => some .trace
  | 0x13 => some .rdstate
  | 0x14 => some .rddigest
  | 0x20 => some .absorb
  | 0x21 => some .squeeze
  | 0x22 => some .push
  | 0x23 => some .finish
  | 0x24 => some .absorball
  | 0x28 => some .hash10
  | 0x29 => some .hashpair
  | 0x2A => some .hashvarlen
  | _ => none

/-- The two commands whose payload count is the field `LEN` (30_encoding.md R46, R51). -/
def Opcode.hasLen : Opcode → Bool
  | .absorball => true
  | .hashvarlen => true
  | _ => false

/-- `ARG = 0`, except for INIT where `ARG` is 0 or 1 (30_encoding.md R50). -/
def Opcode.argLegal : Opcode → BitVec 8 → Bool
  | .init, a => a == 0 || a == 1
  | _, a => a == 0

/-- `LEN = 0`, except for ABSORBALL and HASHVARLEN, where it is any 32-bit value (30_encoding.md R50). -/
def Opcode.lenLegal (op : Opcode) (n : BitVec 32) : Bool := op.hasLen || n == 0

/-- A header with a known opcode is legal: `RSV`, then `ARG`, then `LEN` (30_encoding.md R50). -/
def Opcode.headerLegal (op : Opcode) (hdr : Word) : Bool :=
  rsvField hdr == 0 && op.argLegal (argField hdr) && op.lenLegal (lenField hdr)

/-- The required number of payload words, a function of the header alone (30_encoding.md R49, R51). -/
def Opcode.npay (op : Opcode) (hdr : Word) : Nat :=
  match op with
  | .fromint | .canon | .neg | .inv | .push => 1
  | .montred | .add | .sub | .mul | .div => 2
  | .absorb | .hash10 | .hashpair => 10
  | .absorball | .hashvarlen => (lenField hdr).toNat
  | .init | .permute | .trace | .rdstate | .rddigest | .squeeze | .finish => 0

/-- INIT's domain is `D = ARG` (30_encoding.md R47). -/
def domainOf (a : BitVec 8) : Domain := if a == 0 then .variableLength else .fixedLength

/-- Payload word `pay[k]` of a frame. Read only at `k < npay`, after the count was checked. -/
def payWord (pay : List Word) (k : Nat) : Word := pay.getD k 0

/-- `n` consecutive payload words from `pay[start]` (30_encoding.md R47). -/
def payWords (pay : List Word) (start n : Nat) : Vector Word n :=
  Vector.ofFn fun k => payWord pay (start + k.val)

/-- How operands are taken from a frame whose header and count are right (30_encoding.md R47). -/
def assemble (op : Opcode) (f : Frame) : Instr :=
  match op with
  | .fromint => .fromint (payWord f.pay 0)
  | .canon => .canon (payWord f.pay 0)
  | .montred => .montred (payWord f.pay 0) (payWord f.pay 1)
  | .add => .add (payWord f.pay 0) (payWord f.pay 1)
  | .sub => .sub (payWord f.pay 0) (payWord f.pay 1)
  | .mul => .mul (payWord f.pay 0) (payWord f.pay 1)
  | .neg => .neg (payWord f.pay 0)
  | .inv => .inv (payWord f.pay 0)
  | .div => .div (payWord f.pay 0) (payWord f.pay 1)
  | .init => .init (domainOf (argField f.hdr))
  | .permute => .permute
  | .trace => .trace
  | .rdstate => .rdstate
  | .rddigest => .rddigest
  | .absorb => .absorb (payWords f.pay 0 10)
  | .squeeze => .squeeze
  | .push => .push (payWord f.pay 0)
  | .finish => .finish
  | .absorball => .absorball f.pay
  | .hash10 => .hash10 (payWords f.pay 0 10)
  | .hashpair => .hashpair (payWords f.pay 0 5) (payWords f.pay 5 5)
  | .hashvarlen => .hashvarlen f.pay

/-- The decoder (30_encoding.md R50, R51): header legality first, then the payload count (60_exceptions.md R162, steps 2
and 3), then the operands. -/
def decode (f : Frame) : Except DecodeError Instr :=
  match opcodeOf (opcField f.hdr) with
  | none => .error .illegal
  | some op =>
    if op.headerLegal f.hdr then
      if f.pay.length = op.npay f.hdr then .ok (assemble op f) else .error .length
    else .error .illegal

/-- The opcode of a command. -/
def Instr.opcode : Instr → Opcode
  | .fromint _ => .fromint
  | .canon _ => .canon
  | .montred _ _ => .montred
  | .add _ _ => .add
  | .sub _ _ => .sub
  | .mul _ _ => .mul
  | .neg _ => .neg
  | .inv _ => .inv
  | .div _ _ => .div
  | .init _ => .init
  | .permute => .permute
  | .trace => .trace
  | .rdstate => .rdstate
  | .rddigest => .rddigest
  | .absorb _ => .absorb
  | .squeeze => .squeeze
  | .push _ => .push
  | .finish => .finish
  | .absorball _ => .absorball
  | .hash10 _ => .hash10
  | .hashpair _ _ => .hashpair
  | .hashvarlen _ => .hashvarlen

/-- The numbering of the domains (30_encoding.md R47). -/
def Domain.arg : Domain → BitVec 8
  | .variableLength => 0
  | .fixedLength => 1

/-- Field `ARG` of a command's header (30_encoding.md R46). -/
def Instr.arg : Instr → BitVec 8
  | .init d => d.arg
  | _ => 0

/-- Field `LEN` of a command's header (30_encoding.md R46). -/
def Instr.len : Instr → BitVec 32
  | .absorball x => BitVec.ofNat 32 x.length
  | .hashvarlen x => BitVec.ofNat 32 x.length
  | _ => 0

/-- The payload words of a command, in the order of 30_encoding.md R47. -/
def Instr.payload : Instr → List Word
  | .fromint v => [v]
  | .canon a => [a]
  | .montred lo hi => [lo, hi]
  | .add a b => [a, b]
  | .sub a b => [a, b]
  | .mul a b => [a, b]
  | .neg a => [a]
  | .inv a => [a]
  | .div a b => [a, b]
  | .init _ => []
  | .permute => []
  | .trace => []
  | .rdstate => []
  | .rddigest => []
  | .absorb b => b.toList
  | .squeeze => []
  | .push w => [w]
  | .finish => []
  | .absorball x => x
  | .hash10 b => b.toList
  | .hashpair a b => a.toList ++ b.toList
  | .hashvarlen x => x

/-- The header word with the given fields: `OPC` at bit 0, `ARG` at bit 8, `RSV = 0`, `LEN` at bit 32 (30_encoding.md R46). -/
def headerOf (op : Opcode) (arg : BitVec 8) (len : BitVec 32) : Word :=
  BitVec.ofNat 64 (op.code.toNat + 2 ^ 8 * arg.toNat + 2 ^ 32 * len.toNat)

/-- The encoder: the frame of a command (30_encoding.md R46, R47, R49). -/
def encode (i : Instr) : Frame := { hdr := headerOf i.opcode i.arg i.len, pay := i.payload }

/-- The frame whose bits are `w`, as spec/opcode_table.json numbers them: bit 0 is the least significant bit of the header
word, payload word `k` is bits `64(k+1)+63 : 64(k+1)`, and every bit from `nbits` up is 0. The payload has as many words as the
header asks for (30_encoding.md R51); a header whose opcode names no command stands alone. Log entry 12. -/
def frameOfTableWord (nbits w : Nat) : Frame :=
  let bits := w % 2 ^ nbits
  let hdr := BitVec.ofNat 64 bits
  let n := match opcodeOf (opcField hdr) with
    | none => 0
    | some op => op.npay hdr
  { hdr := hdr, pay := (List.range n).map fun k => BitVec.ofNat 64 (bits >>> (64 * (k + 1))) }

/-- The command the decoder reads from the table word `w` of `nbits` bits; `none` where it rejects. -/
def decodeTableWord (nbits w : Nat) : Option Instr :=
  match decode (frameOfTableWord nbits w) with
  | .ok i => some i
  | .error _ => none

end Sys2Proof
end

