-- ==== Sys2Proof/Config.lean ====
section
/-! DEFINITION. What the hardware fixes once: the numeric parameters (00_scope.md R7) and the three constant tables, whose
values are open parameters of the model (00_scope.md R8, 92_eei_decisions.md D21). -/

namespace Sys2Proof.Config

/-- The modulus `P = 2^64 - 2^32 + 1` (00_scope.md R7). -/
abbrev P : Nat := 0xFFFFFFFF00000001

/-- `R2 = R^2 mod P` with the Montgomery radix `R = 2^64` (00_scope.md R7). -/
abbrev R2 : Nat := 0xFFFFFFFE00000001

/-- `RINV = R^-1 mod P` (00_scope.md R7, 40_field_unit.md). -/
abbrev RINV : Nat := 0xFFFFFFFE00000001

/-- The raw word of the field element one (00_scope.md R7). -/
abbrev ONE : Word := 0x00000000FFFFFFFF#64

/-- The three read-only tables (10_state.md R20), as one parameter of the permutation. The types hold what the spec requires
of the values: `LUT` is a bijection on bytes (00_scope.md R8), the entries of `MDS_COL` are signed 64-bit integers, the
entries of `RC` are canonical. -/
structure Tables where
  /-- `LUT`: the byte S-box. -/
  lut : Equiv.Perm Byte
  /-- `MDS_COL[j]`, a signed 64-bit integer in two's complement. -/
  mdsCol : Fin 16 → BitVec 64
  /-- `RC[j]`, a raw word below `P`; round `i`, word `k` is `j = 16*i + k`. -/
  rc : Fin 112 → Fin P

/-- The byte S-box table of this hardware: OPEN, no value is known (00_scope.md R8, 91_not_in_source.md N2). A free constant:
no proof can see its values. Log entry 2. -/
opaque lut : Equiv.Perm Byte

/-- The diffusion column of this hardware: OPEN, as `lut`. Log entry 2. -/
opaque mdsCol : Fin 16 → BitVec 64

/-- The round constants of this hardware, as raw words (90_conflicts.md C8): OPEN, as `lut`. Log entry 2. -/
opaque rc : Fin 112 → Fin P

/-- The tables of this hardware. They are constants: no command and no reset changes them (70_reset_and_hazards.md R182). -/
def tables : Tables := { lut := lut, mdsCol := mdsCol, rc := rc }

end Sys2Proof.Config
end

