-- ==== Sys2Proof/Machine/State.lean ====
section
/-! DEFINITION. The state of the T5U, its fault causes and its reset state (10_state.md; 60_exceptions.md R160). -/

namespace Sys2Proof.Machine

/-- The five faults of 60_exceptions.md R160. A fault is TAKEN by the machine: a next state with `FAULT` and `CAUSE` written
(R163), never a stop of the model. -/
inductive Cause where
  /-- Code 1, `E_INV_ZERO`: INV or DIV of a zero element. -/
  | invZero
  /-- Code 2, `E_ILLEGAL`: the header is not legal. -/
  | illegal
  /-- Code 3, `E_LENGTH`: the payload count is wrong. -/
  | length
  /-- Code 4, `E_NOSTATE`: `VALID = 0`. -/
  | noState
  /-- Code 5, `E_SEQ`: `POS ≠ 0`. -/
  | seq
  deriving DecidableEq, Repr

/-- Reasons for a step to stop the model with a fault: NONE. Every fault the spec names is one it gives the machine a next
state for (60_exceptions.md R163, R165), and every command on every operand has its effect. Closed, without constructors: safe,
since nothing is cut short. Log entry 4. -/
inductive Fault where
  deriving DecidableEq, Repr

/-- Reasons for a step to refuse. -/
inductive Refusal where
  /-- An instruction without a meaning yet. Raised by no arm of `exec`: all 22 commands have their meaning. It would be safe
  (nothing is claimed of such an instruction). -/
  | notModelled (mnemonic : String)
  deriving DecidableEq, Repr

/-- The state of the T5U (10_state.md R23). -/
structure State where
  /-- `S[0..15]`; `none` while they hold no value (10_state.md R12, R16; 70_reset_and_hazards.md R181). `VALID` is the
  presence test. Log entry 1. -/
  regs : Option Sponge
  /-- `POS`, the rate position, 0 to 9 (10_state.md R19). -/
  pos : Fin 10
  /-- `FAULT`: halted by a fault (10_state.md R18). -/
  fault : Bool
  /-- `CAUSE`: 0 for no fault, else the code of the first fault (10_state.md R18, 60_exceptions.md R160). -/
  cause : BitVec 8
  /-- The words of a command frame part-way through delivery (10_state.md R23). No step reads them. Log entries 9 and 16. -/
  incoming : List Word
  /-- The command stream: complete frames that wait, first to arrive first (10_state.md R17, R21). Log entry 8. -/
  commands : List Frame
  /-- The response stream: response frames not yet received, first emitted first (30_encoding.md R45). Log entry 8. -/
  responses : List (List Word)
  /-- The reset input is asserted (70_reset_and_hazards.md R180). Log entry 3. -/
  resetLine : Bool
  deriving DecidableEq, Repr

/-- The machine right after reset, the reset input released (10_state.md R23, 70_reset_and_hazards.md R180, R183). -/
def State.reset : State where
  regs := none
  pos := 0
  fault := false
  cause := 0
  incoming := []
  commands := []
  responses := []
  resetLine := false

end Sys2Proof.Machine
end

