-- ==== Sys2Proof/Machine/Flags.lean ====
section
/-! DEFINITION. The status fields: the cause codes, `VALID`, the next rate position and the `STATUS` port (10_state.md R16, R18,
R19; 60_exceptions.md R160). There are no arithmetic flags (40_field_unit.md R79). -/

namespace Sys2Proof.Machine

/-- The cause codes (60_exceptions.md R160). -/
def Cause.code : Cause → BitVec 8
  | .invZero => 1
  | .illegal => 2
  | .length => 3
  | .noState => 4
  | .seq => 5

/-- The fault a rejected frame raises (30_encoding.md R50). -/
def causeOf : DecodeError → Cause
  | .illegal => .illegal
  | .length => .length

/-- `VALID`: the state registers hold a value (10_state.md R16, 70_reset_and_hazards.md R181). -/
def State.valid (s : State) : Bool := s.regs.isSome

/-- `(POS + 1) mod 10`, what PUSH leaves in `POS` (10_state.md R19); addition on `Fin 10` is modulo 10. -/
def posAfterPush (p : Fin 10) : Fin 10 := p + 1

/-- The status port (10_state.md R18): `VALID` bit 0, `FAULT` bit 1, `POS` bits 7:4, `CAUSE` bits 15:8, the rest 0. -/
def State.status (s : State) : BitVec 64 :=
  BitVec.ofNat 64 (s.valid.toNat + 2 ^ 1 * s.fault.toNat + 2 ^ 4 * s.pos.val + 2 ^ 8 * s.cause.toNat)

end Sys2Proof.Machine
end

