-- ==== Sys2Proof/Machine/Operands.lean ====
section
/-! DEFINITION. How operands are read: the element a raw word stands for, the 128-bit operand, the bytes of a word, the block
of a pair of digests, and the words of a response (10_state.md R13; 20_memory.md R32, R35; 30_encoding.md R47). -/

namespace Sys2Proof.Machine

open Config

/-- `val(w) = w mod P`, the Montgomery residue of a raw word (10_state.md R13). -/
def val (w : Word) : Nat := w.toNat % P

/-- A raw word is canonical when it is below `P` (10_state.md R13). -/
abbrev Canonical (w : Word) : Prop := w.toNat < P

/-- MONTRED's operand `x = lo + 2^64 * hi` (30_encoding.md R47). -/
def wide (lo hi : Word) : Nat := lo.toNat + 2 ^ 64 * hi.toNat

/-- `byte_k(w) = w[8k+7 : 8k]` (20_memory.md R32). -/
def byteOf (w : Word) (k : Nat) : Byte := w.extractLsb' (8 * k) 8

/-- The word rebuilt from its eight bytes, the sum over `k` of `b_k * 2^(8k)` (20_memory.md R32). -/
def ofBytes (b : Fin 8 → Byte) : Word :=
  BitVec.ofNat 64 ((b 0).toNat + 2 ^ 8 * (b 1).toNat + 2 ^ 16 * (b 2).toNat + 2 ^ 24 * (b 3).toNat +
    2 ^ 32 * (b 4).toNat + 2 ^ 40 * (b 5).toNat + 2 ^ 48 * (b 6).toNat + 2 ^ 56 * (b 7).toNat)

/-- HASHPAIR's block: digest `a` into positions 0 to 4, digest `b` into positions 5 to 9 (30_encoding.md R47). -/
def pairBlock (a b : Digest) : Block := a ++ b

/-- A block of ten words taken from the front of a sequence of at least ten (42_sponge_controller.md R133). -/
def blockOf (y : List Word) : Block := Vector.ofFn fun k => y.getD k.val 0

/-- `S[0..4]`, the digest of a state (10_state.md R15). -/
def digestWords (S : Sponge) : List Word := S.toList.take 5

/-- `S[0..9]`, the rate part of a state (10_state.md R12). -/
def rateWords (S : Sponge) : List Word := S.toList.take 10

end Sys2Proof.Machine
end

