-- ==== Sys2Proof/Machine/FieldArith.lean ====
section
/-! DEFINITION. The helper functions of the field-arithmetic unit on raw words (40_field_unit.md R66, R78). Each is exact integer
arithmetic followed by `mod P` (R79). -/

namespace Sys2Proof.Machine

open Config

/-- `montred(x) = (x * RINV) mod P`, for every `0 ≤ x < 2^128` (40_field_unit.md R66). -/
def montred (x : Nat) : Word := BitVec.ofNat 64 (x * RINV % P)

/-- `canon(a) = montred(a)`, the canonical value (R78). -/
def canon (a : Word) : Word := montred a.toNat

/-- `from_int(v) = montred(v * R2)`, a canonical raw word (R78). -/
def fromInt (v : Word) : Word := montred (v.toNat * R2)

/-- `fadd(a, b) = (a + b) mod P` (R78). -/
def fadd (a b : Word) : Word := BitVec.ofNat 64 ((a.toNat + b.toNat) % P)

/-- `fsub(a, b) = (a - b) mod P`, the least non-negative residue (R78; 00_scope.md R9). -/
def fsub (a b : Word) : Word := BitVec.ofInt 64 (((a.toNat : Int) - (b.toNat : Int)) % (P : Int))

/-- `fneg(a) = fsub(0, a)` (R78). -/
def fneg (a : Word) : Word := fsub 0 a

/-- `fmul(a, b) = montred(a * b)`, on the full 128-bit product (R78). -/
def fmul (a b : Word) : Word := montred (a.toNat * b.toNat)

/-- `fpow(a, 0) = ONE`, `fpow(a, e+1) = fmul(fpow(a, e), a)` (R78). -/
def fpow (a : Word) : Nat → Word
  | 0 => ONE
  | e + 1 => fmul (fpow a e) a

/-- Repeated squaring: what `fpow a e` is, in as many steps as `e` has bits, when `fuel` is at least `e`. Any correct sequence
of multiplications may be used (40_field_unit.md R76); `Laws.fpowSquaring_eq_fpow` proves the equality. Log entry 11. -/
def fpowSquaring : Nat → Word → Nat → Word
  | 0, _, _ => ONE
  | fuel + 1, a, e =>
    if e = 0 then ONE
    else if e % 2 = 1 then fmul (fpowSquaring fuel (fmul a a) (e / 2)) a
    else fpowSquaring fuel (fmul a a) (e / 2)

/-- `finv(a) = fpow(a, P - 2)`, used only when `val(a) ≠ 0` (R78), computed by repeated squaring; `Laws.finv_eq_fpow`. -/
def finv (a : Word) : Word := fpowSquaring (P - 2) a (P - 2)

/-- `fdiv(a, b) = fmul(a, finv(b))`, used only when `val(b) ≠ 0` (R78). -/
def fdiv (a b : Word) : Word := fmul a (finv b)

end Sys2Proof.Machine
end

