-- ==== Sys2Proof/Machine/Permutation.lean ====
section
/-! DEFINITION. The round function and the permutation, parametric in the tables (41_permutation_engine.md R100 to R112). -/

namespace Sys2Proof.Machine

open Config

/-- `init(D)`: rate part 0; capacity words `ONE` in the fixed-length domain, 0 in the variable-length one (R100). -/
def initSponge (d : Domain) : Sponge :=
  Vector.ofFn fun k =>
    if k.val < 10 then 0
    else match d with
      | .fixedLength => ONE
      | .variableLength => 0

/-- The byte S-box of one word: each byte of the raw word, exactly as stored, through `LUT`; no reduction (R102). -/
def sboxLookup (T : Tables) (w : Word) : Word := ofBytes fun k => T.lut (byteOf w k.val)

/-- The 7th-power map of one word (R103). -/
def pow7 (w : Word) : Word := fpow w 7

/-- The nonlinear layer: words 0 to 3 through the byte S-box, words 4 to 15 through the 7th power (R104). -/
def sboxLayer (T : Tables) (S : Sponge) : Sponge :=
  Vector.ofFn fun k => if k.val < 4 then sboxLookup T S[k] else pow7 S[k]

/-- `M[r][c] = MDS_COL[(r - c) mod 16]`, as a signed integer; subtraction on `Fin 16` is modulo 16 (R106). -/
def mdsEntry (T : Tables) (r c : Fin 16) : Int := (T.mdsCol (r - c)).toInt

/-- The exact integer sum of row `r` of the diffusion layer (R106). -/
def mdsRow (T : Tables) (S : Sponge) (r : Fin 16) : Int :=
  ((List.finRange 16).map fun c => mdsEntry T r c * (val S[c] : Int)).sum

/-- The linear diffusion layer: the exact integer sum, then its representative in `[0, P)` (R106). -/
def mdsLayer (T : Tables) (S : Sponge) : Sponge :=
  Vector.ofFn fun r => BitVec.ofInt 64 (mdsRow T S r % (P : Int))

/-- `RC[16*i + k]` as a raw word (10_state.md R20). -/
def roundConstant (T : Tables) (i : Fin 7) (k : Fin 16) : Word :=
  BitVec.ofNat 64 (T.rc ⟨16 * i.val + k.val, by omega⟩).val

/-- The constant layer: field addition of the round's 16 constants (R108). -/
def rcLayer (T : Tables) (i : Fin 7) (S : Sponge) : Sponge :=
  Vector.ofFn fun k => fadd S[k] (roundConstant T i k)

/-- One round with index `i`: the three layers in order (R101). -/
def roundFn (T : Tables) (i : Fin 7) (S : Sponge) : Sponge := rcLayer T i (mdsLayer T (sboxLayer T S))

/-- The permutation: rounds 0 to 6 in sequence (R109). -/
def permute (T : Tables) (S : Sponge) : Sponge :=
  roundFn T 6 (roundFn T 5 (roundFn T 4 (roundFn T 3 (roundFn T 2 (roundFn T 1 (roundFn T 0 S))))))

/-- `t[j]` of TRACE: the state after the first `j` rounds; `t[0]` is the state as stored (R112). -/
def snapshot (T : Tables) (S : Sponge) : Nat → Sponge
  | 0 => S
  | j + 1 => if h : j < 7 then roundFn T ⟨j, h⟩ (snapshot T S j) else snapshot T S j

/-- The 128 words of TRACE's response, snapshot-major: word `16*j + k` is word `k` of snapshot `j` (R112). -/
def traceWords (T : Tables) (S : Sponge) : List Word :=
  (List.range 8).flatMap fun j => (snapshot T S j).toList

end Sys2Proof.Machine
end

