-- ==== Sys2Proof/Machine/Sponge.lean ====
section
/-! DEFINITION. Absorption and padding (42_sponge_controller.md R130, R132, R133, R136, R137), parametric in the tables. -/

namespace Sys2Proof.Machine

open Config

/-- The state with its rate part replaced by a block, the capacity part kept (R130). -/
def overwriteRate (S : Sponge) (b : Block) : Sponge :=
  Vector.ofFn fun k => if h : k.val < 10 then b[k.val] else S[k]

/-- `absorb(s, b)`: the block replaces the rate part, then the permutation (R130). -/
def absorb (T : Tables) (S : Sponge) (b : Block) : Sponge := permute T (overwriteRate S b)

/-- `z`, the number of zeros the padding of `n` words appends (R132). -/
def padZeros (n : Nat) : Nat := (10 - (n + 1) % 10) % 10

/-- `pad(x) = x ++ [ONE] ++ [0, …, 0]` (R132). -/
def pad (x : List Word) : List Word := x ++ [ONE] ++ List.replicate (padZeros x.length) 0

/-- The first `m` blocks of ten words of `y`, absorbed in order (R133). -/
def absorbBlocks (T : Tables) : Nat → Sponge → List Word → Sponge
  | 0, S, _ => S
  | m + 1, S, y => absorbBlocks T m (absorb T S (blockOf y)) (y.drop 10)

/-- `absorb_all(s, x)`: the padded sequence, block after block (R133). -/
def absorbAll (T : Tables) (S : Sponge) (x : List Word) : Sponge :=
  absorbBlocks T ((pad x).length / 10) S (pad x)

/-- `S[POS] <- w` (R136). -/
def writeAt (S : Sponge) (pos : Fin 10) (w : Word) : Sponge := S.set pos.val w (by omega)

/-- `S[POS] <- ONE`, `S[k] <- 0` for `k = POS+1 .. 9` (R137). -/
def closeBlock (S : Sponge) (pos : Fin 10) : Sponge :=
  Vector.ofFn fun k =>
    if k.val = pos.val then ONE
    else if pos.val < k.val ∧ k.val < 10 then 0
    else S[k]

end Sys2Proof.Machine
end

