-- ==== Sys2Proof/Machine/Ops.lean ====
section
/-! DEFINITION. The named operations over the state: emitting a response, loading the sponge, TAKING A FAULT, the two checks of
the state commands, fetching a frame, reset, and what the host can do (30_encoding.md R45; 60_exceptions.md R160 to R165;
70_reset_and_hazards.md R180). There is no memory (20_memory.md R30) and no return from a fault (60_exceptions.md R165). -/

namespace Sys2Proof.Machine

open Host (Outcome)

/-- `rsp <- [w0, w1, …]`: emit one response frame, possibly empty (00_scope.md R9, 30_encoding.md R45). -/
def State.respond (s : State) (rsp : List Word) : State := { s with responses := s.responses ++ [rsp] }

/-- Load all of `S` and `POS`; `VALID` becomes 1 with it (10_state.md R16, R19). -/
def State.load (s : State) (S : Sponge) (p : Fin 10) : State := { s with regs := some S, pos := p }

/-- Fault entry: `FAULT <- 1`, `CAUSE <- c`, and nothing else (60_exceptions.md R163). -/
def State.raise (s : State) (c : Cause) : State := { s with fault := true, cause := c.code }

/-- `require VALID = 1 else raise E_NOSTATE`, then the command on the value of `S` (60_exceptions.md R160, R162 step 4). -/
def State.withState (s : State) (k : Sponge → Outcome State Fault Refusal) : Outcome State Fault Refusal :=
  match s.regs with
  | none => .next (s.raise .noState)
  | some S => k S

/-- `require VALID = 1`, then `require POS = 0 else raise E_SEQ` (60_exceptions.md R160, R162 steps 4 and 5). -/
def State.withClosedBlock (s : State) (k : Sponge → Outcome State Fault Refusal) : Outcome State Fault Refusal :=
  s.withState fun S => if s.pos = 0 then k S else .next (s.raise .seq)

/-- `if val(a) = 0 then raise E_INV_ZERO`: the zero test is on the element (40_field_unit.md R75, R77; 60_exceptions.md R162
step 6). -/
def State.withNonzero (s : State) (a : Word) (k : Outcome State Fault Refusal) : Outcome State Fault Refusal :=
  if val a = 0 then .next (s.raise .invZero) else k

/-- The next command frame and the state with it taken off the command stream (10_state.md R10, R17). -/
def State.fetch (s : State) : Option (Frame × State) :=
  match s.commands with
  | [] => none
  | f :: rest => some (f, { s with commands := rest })

/-- The command stream with a frame put where the next step fetches. -/
def State.pushFront (s : State) (f : Frame) : State := { s with commands := f :: s.commands }

/-- The host asserts reset: the unit is in the reset state at once, whatever it was doing, and stays there while the input is
asserted (70_reset_and_hazards.md R180). Log entry 3. -/
def State.assertReset (_ : State) : State := { State.reset with resetLine := true }

/-- The host releases reset (70_reset_and_hazards.md R183). -/
def State.releaseReset (s : State) : State := { s with resetLine := false }

/-- The transport delivers one word of a command frame (30_encoding.md R45). DESIGN CHOICE, log entry 16: reset discards the words
received so far (10_state.md R23), and a word delivered after it, be it the rest of the frame that reset cut or a word that comes
while reset is held, starts a new frame. -/
def State.deliver (s : State) (w : Word) : State := { s with incoming := s.incoming ++ [w] }

/-- The transport ends the frame under delivery (30_encoding.md R45); with no word delivered there is no frame (R51). -/
def State.endFrame (s : State) : State :=
  match s.incoming with
  | [] => s
  | hdr :: pay => { s with incoming := [], commands := s.commands ++ [{ hdr := hdr, pay := pay }] }

/-- The host sends one whole frame (10_state.md R10). -/
def State.send (s : State) (f : Frame) : State := { s with commands := s.commands ++ [f] }

/-- The host receives the oldest response frame (10_state.md R10). -/
def State.receive (s : State) : Option (List Word × State) :=
  match s.responses with
  | [] => none
  | r :: rest => some (r, { s with responses := rest })

end Sys2Proof.Machine
end

