-- ==== Sys2Proof/Machine/FieldUnit.lean ====
section
/-! DEFINITION. The meanings of the nine FAU commands (40_field_unit.md). Each takes its operands from the payload only, touches
no state register and no status field unless it faults, and returns one word (R65). -/

namespace Sys2Proof.Machine

open Host (Outcome)

/-- FROMINT v: `rsp <- [from_int(v)]` (R68). -/
def execFromint (v : Word) (s : State) : Outcome State Fault Refusal := .next (s.respond [fromInt v])

/-- CANON a: `rsp <- [canon(a)]` (R69). -/
def execCanon (a : Word) (s : State) : Outcome State Fault Refusal := .next (s.respond [canon a])

/-- MONTRED lo, hi: `rsp <- [montred(lo + 2^64 * hi)]` (R70). -/
def execMontred (lo hi : Word) (s : State) : Outcome State Fault Refusal := .next (s.respond [montred (wide lo hi)])

/-- ADD a, b: `rsp <- [fadd(a, b)]` (R71). -/
def execAdd (a b : Word) (s : State) : Outcome State Fault Refusal := .next (s.respond [fadd a b])

/-- SUB a, b: `rsp <- [fsub(a, b)]`, the first operand the minuend (R72). -/
def execSub (a b : Word) (s : State) : Outcome State Fault Refusal := .next (s.respond [fsub a b])

/-- MUL a, b: `rsp <- [fmul(a, b)]` (R73). -/
def execMul (a b : Word) (s : State) : Outcome State Fault Refusal := .next (s.respond [fmul a b])

/-- NEG a: `rsp <- [fneg(a)]` (R74). -/
def execNeg (a : Word) (s : State) : Outcome State Fault Refusal := .next (s.respond [fneg a])

/-- INV a: `E_INV_ZERO` on a zero element, else `rsp <- [finv(a)]` (R75). -/
def execInv (a : Word) (s : State) : Outcome State Fault Refusal :=
  s.withNonzero a (.next (s.respond [finv a]))

/-- DIV a, b: `E_INV_ZERO` when `b` is a zero element, whatever `a` is, else `rsp <- [fdiv(a, b)]` (R77). -/
def execDiv (a b : Word) (s : State) : Outcome State Fault Refusal :=
  s.withNonzero b (.next (s.respond [fdiv a b]))

end Sys2Proof.Machine
end

