-- ==== Sys2Proof/Machine/PermutationEngine.lean ====
section
/-! DEFINITION. The meanings of the five PE commands (41_permutation_engine.md R100, R111 to R114). -/

namespace Sys2Proof.Machine

open Host (Outcome)
open Config (tables)

/-- INIT D: `S <- init(D)`, `VALID <- 1`, `POS <- 0`, `rsp <- []`; legal whatever `VALID` and `POS` are (R100). -/
def execInit (d : Domain) (s : State) : Outcome State Fault Refusal :=
  .next ((s.load (initSponge d) 0).respond [])

/-- PERMUTE: `S <- permute(S)`, `rsp <- []` (R111). -/
def execPermute (s : State) : Outcome State Fault Refusal :=
  s.withClosedBlock fun S => .next ((s.load (permute tables S) s.pos).respond [])

/-- TRACE: the 8 snapshots as the response, `S` left as PERMUTE leaves it (R112). -/
def execTrace (s : State) : Outcome State Fault Refusal :=
  s.withClosedBlock fun S => .next ((s.load (snapshot tables S 7) s.pos).respond (traceWords tables S))

/-- RDSTATE: `rsp[k] <- S[k]`, `k = 0..15`; `S` unchanged, legal for any `POS` (R113). -/
def execRdstate (s : State) : Outcome State Fault Refusal :=
  s.withState fun S => .next (s.respond S.toList)

/-- RDDIGEST: `rsp[k] <- S[k]`, `k = 0..4`; `S` unchanged (R114). -/
def execRddigest (s : State) : Outcome State Fault Refusal :=
  s.withClosedBlock fun S => .next (s.respond (digestWords S))

end Sys2Proof.Machine
end

