-- ==== Sys2Proof/Machine/SpongeController.lean ====
section
/-! DEFINITION. The meanings of the eight SC commands (42_sponge_controller.md R130, R131, R136 to R138, R143, R145, R147). -/

namespace Sys2Proof.Machine

open Host (Outcome)
open Config (tables)

/-- ABSORB b0, …, b9: `S <- absorb(S, pay)`, `rsp <- []` (R130). -/
def execAbsorb (b : Block) (s : State) : Outcome State Fault Refusal :=
  s.withClosedBlock fun S => .next ((s.load (absorb tables S b) s.pos).respond [])

/-- SQUEEZE: the rate part before the permutation, then `S <- permute(S)` (R131). -/
def execSqueeze (s : State) : Outcome State Fault Refusal :=
  s.withClosedBlock fun S => .next ((s.load (permute tables S) s.pos).respond (rateWords S))

/-- PUSH w: `S[POS] <- w`; the word that fills the block permutes (R136). -/
def execPush (w : Word) (s : State) : Outcome State Fault Refusal :=
  s.withState fun S =>
    let S' := writeAt S s.pos w
    .next ((s.load (if s.pos = 9 then permute tables S' else S') (posAfterPush s.pos)).respond [])

/-- FINISH: marker, zeros, one permutation, `POS <- 0`; legal for every `POS` (R137). -/
def execFinish (s : State) : Outcome State Fault Refusal :=
  s.withState fun S => .next ((s.load (permute tables (closeBlock S s.pos)) 0).respond [])

/-- ABSORBALL x0, …, x(n-1): `S <- absorb_all(S, pay)`, `POS <- 0`, `rsp <- []` (R138). -/
def execAbsorball (x : List Word) (s : State) : Outcome State Fault Refusal :=
  s.withClosedBlock fun S => .next ((s.load (absorbAll tables S x) 0).respond [])

/-- HASH10 b0, …, b9: `S <- absorb(init(1), pay)`, `VALID <- 1`, `POS <- 0`, the digest as the response; legal whatever `VALID`
and `POS` are (R143). -/
def execHash10 (b : Block) (s : State) : Outcome State Fault Refusal :=
  let S := absorb tables (initSponge .fixedLength) b
  .next ((s.load S 0).respond (digestWords S))

/-- HASHPAIR a, b: every effect is that of HASH10 on the concatenation (R145). -/
def execHashpair (a b : Digest) (s : State) : Outcome State Fault Refusal :=
  let S := absorb tables (initSponge .fixedLength) (pairBlock a b)
  .next ((s.load S 0).respond (digestWords S))

/-- HASHVARLEN x0, …, x(n-1): `S <- absorb_all(init(0), pay)`, `VALID <- 1`, `POS <- 0`, the digest as the response (R147). -/
def execHashvarlen (x : List Word) (s : State) : Outcome State Fault Refusal :=
  let S := absorbAll tables (initSponge .variableLength) x
  .next ((s.load S 0).respond (digestWords S))

end Sys2Proof.Machine
end

