-- ==== Sys2Proof/Machine/Dispatch.lean ====
section
/-! DEFINITION. One arm per command (30_encoding.md R49). `exec` is the command's own part of a step: steps 4 to 6 of
60_exceptions.md R162 and the effect. Steps 1 to 3 (halted, header, count) are before it, in `step`. -/

namespace Sys2Proof.Machine

def exec (i : Instr) (s : State) : Host.Outcome State Fault Refusal :=
  match i with
  -- field-arithmetic unit
  | .fromint v => Sys2Proof.Machine.execFromint v s
  | .canon a => Sys2Proof.Machine.execCanon a s
  | .montred lo hi => Sys2Proof.Machine.execMontred lo hi s
  | .add a b => Sys2Proof.Machine.execAdd a b s
  | .sub a b => Sys2Proof.Machine.execSub a b s
  | .mul a b => Sys2Proof.Machine.execMul a b s
  | .neg a => Sys2Proof.Machine.execNeg a s
  | .inv a => Sys2Proof.Machine.execInv a s
  | .div a b => Sys2Proof.Machine.execDiv a b s
  -- permutation engine
  | .init d => Sys2Proof.Machine.execInit d s
  | .permute => Sys2Proof.Machine.execPermute s
  | .trace => Sys2Proof.Machine.execTrace s
  | .rdstate => Sys2Proof.Machine.execRdstate s
  | .rddigest => Sys2Proof.Machine.execRddigest s
  -- sponge controller
  | .absorb b => Sys2Proof.Machine.execAbsorb b s
  | .squeeze => Sys2Proof.Machine.execSqueeze s
  | .push w => Sys2Proof.Machine.execPush w s
  | .finish => Sys2Proof.Machine.execFinish s
  | .absorball x => Sys2Proof.Machine.execAbsorball x s
  | .hash10 b => Sys2Proof.Machine.execHash10 b s
  | .hashpair a b => Sys2Proof.Machine.execHashpair a b s
  | .hashvarlen x => Sys2Proof.Machine.execHashvarlen x s

end Sys2Proof.Machine
end

