-- ==== Sys2Proof/Machine/Step.lean ====
section
/-! DEFINITION. One step of the T5U: the execution of one command frame (10_state.md R10). -/

namespace Sys2Proof.Machine

/-- One step. While reset is asserted the unit stays in the reset state (70_reset_and_hazards.md R180). With no frame waiting it
holds its state (60_exceptions.md R179). Otherwise it consumes the next frame: halted, it discards it (R165); else the frame's
decoding faults (R162 steps 2 and 3) or its command runs. -/
def step (s : State) : Host.Outcome State Fault Refusal :=
  if s.resetLine then .next s.assertReset
  else match s.fetch with
    | none => .next s
    | some (f, s') =>
      if s'.fault then .next s'
      else match decode f with
        | .error e => .next (s'.raise (causeOf e))
        | .ok i => exec i s'

/-- `s` with the frame of the table word `w` (spec/opcode_table.json's numbering, bits from `nbits` up 0) put at the front of the
command stream, where the next step fetches. Nothing else changes. Log entries 6 and 12. -/
def State.withFetchWord (s : State) (nbits w : Nat) : State := s.pushFront (frameOfTableWord nbits w)

end Sys2Proof.Machine
end

