-- ==== Sys2Proof/Safety.lean ====
section
/-! DEFINITION. The words the statements use: legal headers and payload counts as 30_encoding.md R49 and R50 list them, the first
check that fails as 60_exceptions.md R160 and R162 list them, sequences of commands, and what holds of a state between
commands. Written from the rules, apart from the decoder and the meanings they speak about. -/

namespace Sys2Proof

/-- The nine FAU commands (30_encoding.md R49). -/
def Instr.isFau : Instr → Bool
  | .fromint _ | .canon _ | .montred _ _ | .add _ _ | .sub _ _ | .mul _ _ | .neg _ | .inv _ | .div _ _ => true
  | .init _ | .permute | .trace | .rdstate | .rddigest => false
  | .absorb _ | .squeeze | .push _ | .finish | .absorball _ | .hash10 _ | .hashpair _ _ | .hashvarlen _ => false

/-- The three hash commands (42_sponge_controller.md R148). -/
def Instr.isHash : Instr → Bool
  | .hash10 _ | .hashpair _ _ | .hashvarlen _ => true
  | .fromint _ | .canon _ | .montred _ _ | .add _ _ | .sub _ _ | .mul _ _ | .neg _ | .inv _ | .div _ _ => false
  | .init _ | .permute | .trace | .rdstate | .rddigest => false
  | .absorb _ | .squeeze | .push _ | .finish | .absorball _ => false

/-- INIT, HASH10, HASHPAIR, HASHVARLEN: the commands that set `VALID` (10_state.md R18). -/
def Instr.startsState : Instr → Bool
  | .init _ | .hash10 _ | .hashpair _ _ | .hashvarlen _ => true
  | .fromint _ | .canon _ | .montred _ _ | .add _ _ | .sub _ _ | .mul _ _ | .neg _ | .inv _ | .div _ _ => false
  | .permute | .trace | .rdstate | .rddigest => false
  | .absorb _ | .squeeze | .push _ | .finish | .absorball _ => false

/-- The commands `E_NOSTATE` is raised by (60_exceptions.md R160). -/
def Instr.needsState : Instr → Bool
  | .permute | .trace | .rdstate | .rddigest | .absorb _ | .squeeze | .push _ | .finish | .absorball _ => true
  | .fromint _ | .canon _ | .montred _ _ | .add _ _ | .sub _ _ | .mul _ _ | .neg _ | .inv _ | .div _ _ => false
  | .init _ | .hash10 _ | .hashpair _ _ | .hashvarlen _ => false

/-- The commands `E_SEQ` is raised by (60_exceptions.md R160). -/
def Instr.needsClosedBlock : Instr → Bool
  | .permute | .trace | .rddigest | .absorb _ | .squeeze | .absorball _ => true
  | .fromint _ | .canon _ | .montred _ _ | .add _ _ | .sub _ _ | .mul _ _ | .neg _ | .inv _ | .div _ _ => false
  | .init _ | .rdstate | .push _ | .finish | .hash10 _ | .hashpair _ _ | .hashvarlen _ => false

/-- The operands `E_INV_ZERO` is raised on (60_exceptions.md R160): a zero element, `0` or `P` as a word. -/
def Instr.zeroOperand : Instr → Bool
  | .inv a => a.toNat % Config.P == 0
  | .div _ b => b.toNat % Config.P == 0
  | .fromint _ | .canon _ | .montred _ _ | .add _ _ | .sub _ _ | .mul _ _ | .neg _ => false
  | .init _ | .permute | .trace | .rdstate | .rddigest => false
  | .absorb _ | .squeeze | .push _ | .finish | .absorball _ | .hash10 _ | .hashpair _ _ | .hashvarlen _ => false

namespace Machine

open Config

/-- The 22 values of `OPC` (30_encoding.md R49). -/
def opcodeValues : List Nat :=
  [0x01, 0x02, 0x03, 0x04, 0x05, 0x06, 0x07, 0x08, 0x09, 0x10, 0x11, 0x12, 0x13, 0x14,
   0x20, 0x21, 0x22, 0x23, 0x24, 0x28, 0x29, 0x2A]

/-- A legal header (30_encoding.md R46, R50): `OPC` known, `RSV = 0`, `ARG` allowed, `LEN` allowed. -/
def LegalHeader (hdr : Word) : Prop :=
  hdr.toNat % 2 ^ 8 ∈ opcodeValues ∧
  hdr.toNat / 2 ^ 16 % 2 ^ 16 = 0 ∧
  (if hdr.toNat % 2 ^ 8 = 0x10 then hdr.toNat / 2 ^ 8 % 2 ^ 8 ≤ 1 else hdr.toNat / 2 ^ 8 % 2 ^ 8 = 0) ∧
  (hdr.toNat % 2 ^ 8 = 0x24 ∨ hdr.toNat % 2 ^ 8 = 0x2A ∨ hdr.toNat / 2 ^ 32 = 0)

/-- The column `npay` of 30_encoding.md R49. -/
def requiredPayload (hdr : Word) : Nat :=
  if hdr.toNat % 2 ^ 8 ∈ [0x24, 0x2A] then hdr.toNat / 2 ^ 32
  else if hdr.toNat % 2 ^ 8 ∈ [0x01, 0x02, 0x07, 0x08, 0x22] then 1
  else if hdr.toNat % 2 ^ 8 ∈ [0x03, 0x04, 0x05, 0x06, 0x09] then 2
  else if hdr.toNat % 2 ^ 8 ∈ [0x20, 0x28, 0x29] then 10
  else 0

/-- The frame `hdr, pay` is the command `i`, and the same header with another number of payload words is `E_LENGTH`
(30_encoding.md R49, R50). -/
def IsFrameOf (hdr : Word) (pay : List Word) (i : Instr) : Prop :=
  decode { hdr := hdr, pay := pay } = .ok i ∧
  ∀ p : List Word, p.length ≠ pay.length → decode { hdr := hdr, pay := p } = .error .length

/-- The cause code of the first of steps 4 to 6 of 60_exceptions.md R162 that fails; `none` when the command has its effect. -/
def firstFault (i : Instr) (s : State) : Option (BitVec 8) :=
  if i.needsState = true ∧ s.regs = none then some 4
  else if i.needsClosedBlock = true ∧ s.pos ≠ 0 then some 5
  else if i.zeroOperand = true then some 1
  else none

/-- Decoded commands one after another (20_memory.md R38). -/
def execAll : List Instr → State → Host.Outcome State Fault Refusal
  | [], s => .next s
  | i :: rest, s =>
    match exec i s with
    | .next t => execAll rest t
    | .fault r => .fault r
    | .refused r => .refused r

/-- A running unit: no fault has halted it (60_exceptions.md R169). A safe run is one of running states. -/
def State.Running (s : State) : Prop := s.fault = false

/-- What holds of the unit between commands: `CAUSE` is set exactly with `FAULT` and is a code of 60_exceptions.md R160; without a
state there is no open block (10_state.md R16, R19); and only the words a PUSH has put below `POS` can be non-canonical
(10_state.md R14). -/
def State.Inv (s : State) : Prop :=
  (s.fault = true ↔ s.cause ≠ 0) ∧
  s.cause.toNat ≤ 5 ∧
  (s.regs = none → s.pos = 0) ∧
  ∀ S : Sponge, s.regs = some S → ∀ (k : Nat) (h : k < 16), s.pos.val ≤ k → S[k].toNat < P

end Machine

end Sys2Proof
end

