-- ==== Sys2Proof/Certificates/Slice0/Obligations.lean ====
section
/-! DEFINITION. The statements for the provers. A record update `{ s with … }` in a conclusion is the whole next state: every field
it does not name is unchanged, which is the statement's frame (the T5U has no memory: 20_memory.md R30). -/

open Sys2Proof Sys2Proof.Machine Sys2Proof.Config

/-! ## Field-arithmetic unit -/

/-- 40_field_unit.md R68. -/
def Obligations.FromintRespondsWithMontgomeryWord : Prop :=
  ∀ v : Word, IsFrameOf 0x01 [v] (.fromint v) ∧
    ∀ s : State, exec (.fromint v) s =
      .next { s with responses := s.responses ++ [[BitVec.ofNat 64 (v.toNat * 2 ^ 64 % P)]] }

/-- 40_field_unit.md R69: the response is the residue whose Montgomery word is `a`, and CANON undoes FROMINT. -/
def Obligations.CanonRespondsWithCanonicalValue : Prop :=
  ∀ a : Word, IsFrameOf 0x02 [a] (.canon a) ∧
    (∃ c : Word, c.toNat = a.toNat * RINV % P ∧ c.toNat < P ∧ c.toNat * 2 ^ 64 % P = a.toNat % P ∧
      ∀ s : State, exec (.canon a) s = .next { s with responses := s.responses ++ [[c]] }) ∧
    (a.toNat < P → ∀ s : State, exec (.canon (BitVec.ofNat 64 (a.toNat * 2 ^ 64 % P))) s =
      .next { s with responses := s.responses ++ [[a]] })

/-- 40_field_unit.md R66, R70: every 128-bit operand, also outside `[0, P * 2^64)`. -/
def Obligations.MontredReducesEvery128BitOperand : Prop :=
  ∀ lo hi : Word, IsFrameOf 0x03 [lo, hi] (.montred lo hi) ∧
    ∃ r : Word, r.toNat = (lo.toNat + 2 ^ 64 * hi.toNat) * RINV % P ∧ r.toNat < P ∧
      r.toNat * 2 ^ 64 % P = (lo.toNat + 2 ^ 64 * hi.toNat) % P ∧
      ∀ s : State, exec (.montred lo hi) s = .next { s with responses := s.responses ++ [[r]] }

/-- 40_field_unit.md R71, with the single correction that canonical operands need. -/
def Obligations.AddRespondsWithModularSum : Prop :=
  ∀ a b : Word, IsFrameOf 0x04 [a, b] (.add a b) ∧
    ∃ r : Word, r.toNat = (a.toNat + b.toNat) % P ∧
      (a.toNat < P → b.toNat < P →
        r.toNat = if P ≤ a.toNat + b.toNat then a.toNat + b.toNat - P else a.toNat + b.toNat) ∧
      ∀ s : State, exec (.add a b) s = .next { s with responses := s.responses ++ [[r]] }

/-- 40_field_unit.md R72, with the single correction that canonical operands need. -/
def Obligations.SubRespondsWithModularDifference : Prop :=
  ∀ a b : Word, IsFrameOf 0x05 [a, b] (.sub a b) ∧
    ∃ r : Word, (r.toNat : Int) = ((a.toNat : Int) - (b.toNat : Int)) % (P : Int) ∧
      (a.toNat < P → b.toNat < P →
        r.toNat = if a.toNat < b.toNat then a.toNat + P - b.toNat else a.toNat - b.toNat) ∧
      ∀ s : State, exec (.sub a b) s = .next { s with responses := s.responses ++ [[r]] }

/-- 40_field_unit.md R73, with the corner case `MUL a, ONE` of the rule. -/
def Obligations.MulRespondsWithMontgomeryProduct : Prop :=
  ∀ a b : Word, IsFrameOf 0x06 [a, b] (.mul a b) ∧
    (∃ r : Word, r.toNat = a.toNat * b.toNat * RINV % P ∧ r.toNat * 2 ^ 64 % P = a.toNat * b.toNat % P ∧
      ∀ s : State, exec (.mul a b) s = .next { s with responses := s.responses ++ [[r]] }) ∧
    ∀ s : State, exec (.mul a ONE) s =
      .next { s with responses := s.responses ++ [[BitVec.ofNat 64 (a.toNat % P)]] }

/-- 40_field_unit.md R74: `(P - val(a)) mod P`, which is what SUB 0, a answers. -/
def Obligations.NegRespondsWithAdditiveInverse : Prop :=
  ∀ a : Word, IsFrameOf 0x07 [a] (.neg a) ∧
    ∀ s : State, exec (.neg a) s =
        .next { s with responses := s.responses ++ [[BitVec.ofNat 64 ((P - a.toNat % P) % P)]] } ∧
      exec (.neg a) s = exec (.sub 0 a) s

/-- 40_field_unit.md R75: the zero test is on the element; the result is the power `P - 2` by the recursion of R78. -/
def Obligations.InvFaultsOnZeroElseFermatPower : Prop :=
  ∀ a : Word, IsFrameOf 0x08 [a] (.inv a) ∧
    ∀ s : State,
      (a.toNat % P = 0 → exec (.inv a) s = .next { s with fault := true, cause := 1 }) ∧
      (a.toNat % P ≠ 0 → exec (.inv a) s = .next { s with responses := s.responses ++ [[fpow a (P - 2)]] })

/-- The sentence of 40_field_unit.md R75 that the rule marks as derived: the result is the unique canonical word `q` with
`fmul(a, q) = ONE`. -/
def Obligations.InvRespondsWithUniqueInverse : Prop :=
  ∀ a : Word, a.toNat % P ≠ 0 →
    ∃ q : Word, q.toNat < P ∧ fmul a q = ONE ∧
      (∀ q' : Word, q'.toNat < P → fmul a q' = ONE → q' = q) ∧
      ∀ s : State, exec (.inv a) s = .next { s with responses := s.responses ++ [[q]] }

/-- 40_field_unit.md R77. -/
def Obligations.DivFaultsOnZeroElseMultipliesByInverse : Prop :=
  ∀ a b : Word, IsFrameOf 0x09 [a, b] (.div a b) ∧
    ∀ s : State,
      (b.toNat % P = 0 → exec (.div a b) s = .next { s with fault := true, cause := 1 }) ∧
      (b.toNat % P ≠ 0 →
        exec (.div a b) s = .next { s with responses := s.responses ++ [[fmul a (fpow b (P - 2))]] })

/-- The sentence of 40_field_unit.md R79 on DIV (`fmul(fdiv(a, b), b) = val(a)`), and 30_encoding.md R54's reading of DIV as INV then
MUL. -/
def Obligations.DivIsExactAndIsInvThenMul : Prop :=
  ∀ a b : Word, b.toNat % P ≠ 0 →
    ∃ q r : Word, fmul q b = BitVec.ofNat 64 (a.toNat % P) ∧ ∀ s : State,
      exec (.div a b) s = .next { s with responses := s.responses ++ [[q]] } ∧
      exec (.inv b) s = .next { s with responses := s.responses ++ [[r]] } ∧
      exec (.mul a r) s = .next { s with responses := s.responses ++ [[q]] }

/-- 40_field_unit.md R65, the common template: one canonical response word that no state register and no status field decides, or
`E_INV_ZERO` on INV and DIV; and operands are read as `val`. -/
def Obligations.FauCommandsFollowTheCommonTemplate : Prop :=
  (∀ i : Instr, i.isFau = true →
    (∃ w : Word, w.toNat < P ∧ ∀ s : State, exec i s = .next { s with responses := s.responses ++ [[w]] }) ∨
    (∃ a b : Word, b.toNat % P = 0 ∧ (i = .inv b ∨ i = .div a b) ∧
      ∀ s : State, exec i s = .next { s with fault := true, cause := 1 })) ∧
  (∀ a a' b b' : Word, a.toNat % P = a'.toNat % P → b.toNat % P = b'.toNat % P → ∀ s : State,
    exec (.canon a) s = exec (.canon a') s ∧ exec (.add a b) s = exec (.add a' b') s ∧
    exec (.sub a b) s = exec (.sub a' b') s ∧ exec (.mul a b) s = exec (.mul a' b') s ∧
    exec (.neg a) s = exec (.neg a') s ∧ exec (.inv a) s = exec (.inv a') s ∧
    exec (.div a b) s = exec (.div a' b') s)

/-- The laws of 40_field_unit.md R79, which the rule marks as derived, bit for bit on all raw words. -/
def Obligations.FieldFunctionsObeyTheFieldLaws : Prop :=
  ∀ a b c : Word,
    fadd a b = fadd b a ∧ fadd (fadd a b) c = fadd a (fadd b c) ∧
    fmul a b = fmul b a ∧ fmul (fmul a b) c = fmul a (fmul b c) ∧
    fmul a (fadd b c) = fadd (fmul a b) (fmul a c) ∧
    fadd a 0 = BitVec.ofNat 64 (a.toNat % P) ∧ fmul a ONE = BitVec.ofNat 64 (a.toNat % P) ∧
    fadd a (fneg a) = 0 ∧
    (a.toNat % P ≠ 0 → fmul a (finv a) = ONE ∧ finv (finv a) = BitVec.ofNat 64 (a.toNat % P))

/-- The homomorphism of 40_field_unit.md R78, which the rule marks as derived. -/
def Obligations.CanonIsARingHomomorphism : Prop :=
  ∀ a b v : Word,
    (canon (fromInt v)).toNat = v.toNat % P ∧
    (canon ONE).toNat = 1 ∧ (canon 0).toNat = 0 ∧
    (canon (fadd a b)).toNat = ((canon a).toNat + (canon b).toNat) % P ∧
    ((canon (fsub a b)).toNat : Int) = (((canon a).toNat : Int) - (canon b).toNat) % (P : Int) ∧
    (canon (fmul a b)).toNat = (canon a).toNat * (canon b).toNat % P ∧
    (∀ e : Nat, (canon (fpow a e)).toNat = (canon a).toNat ^ e % P) ∧
    fromInt (canon a) = BitVec.ofNat 64 (a.toNat % P)

/-! ## Permutation engine -/

/-- 41_permutation_engine.md R100. -/
def Obligations.InitLoadsTheDomainState : Prop :=
  IsFrameOf 0x010 [] (.init .variableLength) ∧ IsFrameOf 0x110 [] (.init .fixedLength) ∧
  ∀ (d : Domain) (s : State), ∃ S : Sponge,
    (∀ (k : Nat) (h : k < 16), S[k] = if k < 10 then 0 else if d = .fixedLength then 0x00000000FFFFFFFF else 0) ∧
    exec (.init d) s = .next { s with regs := some S, pos := 0, responses := s.responses ++ [[]] } ∧
    { s with regs := some S, pos := 0, responses := s.responses ++ [[]] : State }.valid = true

/-- 41_permutation_engine.md R102: byte by byte, and a bijection on words because `LUT` is one on bytes. -/
def Obligations.SboxLookupSubstitutesEachByteAndIsBijective : Prop :=
  ∀ T : Tables,
    (∀ (w : Word) (k : Nat), k < 8 →
      (sboxLookup T w).extractLsb' (8 * k) 8 = T.lut (w.extractLsb' (8 * k) 8)) ∧
    Function.Bijective (sboxLookup T)

/-- 41_permutation_engine.md R103: the 7th power, by the rule's own sequence of multiplications, and its derived canonical value. -/
def Obligations.PowerMapIsTheSeventhPower : Prop :=
  ∀ w : Word,
    pow7 w = fmul (fmul (fmul (fmul w w) (fmul w w)) (fmul w w)) w ∧
    (pow7 w).toNat < P ∧ (canon (pow7 w)).toNat = (canon w).toNat ^ 7 % P

/-- A property 41_permutation_engine.md R102 derives: a table that fixes 0x00 and 0xFF keeps canonical words canonical and the others
not (no such table is assumed anywhere else). -/
def Obligations.SboxLookupKeepsCanonicityWhereTheTableFixesZeroAndFf : Prop :=
  ∀ T : Tables, T.lut 0x00 = 0x00 → T.lut 0xFF = 0xFF →
    ∀ w : Word, (sboxLookup T w).toNat < P ↔ w.toNat < P

/-- 41_permutation_engine.md R101, R104, R106, R108: the diffusion and constant layers word by word, and the three layers as one
formula for each word of a round's result. -/
def Obligations.RoundWordFormula : Prop :=
  (∀ (T : Tables) (S : Sponge) (r : Fin 16), ((mdsLayer T S)[r].toNat : Int) =
    (∑ c : Fin 16, (T.mdsCol (r - c)).toInt * ((S[c].toNat % P : Nat) : Int)) % (P : Int)) ∧
  (∀ (T : Tables) (i : Fin 7) (S : Sponge) (k : Fin 16), (rcLayer T i S)[k].toNat =
    (S[k].toNat + (T.rc ⟨16 * i.val + k.val, by omega⟩).val) % P) ∧
  ∀ (T : Tables) (i : Fin 7) (S X : Sponge),
    (∀ (c : Nat) (h : c < 16), X[c] = if c < 4 then sboxLookup T S[c] else fpow S[c] 7) →
    ∀ r : Fin 16, ((roundFn T i S)[r].toNat : Int) =
      ((∑ c : Fin 16, (T.mdsCol (r - c)).toInt * ((X[c].toNat % P : Nat) : Int)) +
        ((T.rc ⟨16 * i.val + r.val, by omega⟩).val : Int)) % (P : Int)

/-- The sentence of 41_permutation_engine.md R106 that the rule marks as derived: the layer is the matrix on canonical values. -/
def Obligations.MdsLayerIsTheMatrixOnCanonicalValues : Prop :=
  ∀ (T : Tables) (S : Sponge) (r : Fin 16), ((mdsLayer T S)[r]).toNat < P ∧
    ((canon (mdsLayer T S)[r]).toNat : Int) =
      (∑ c : Fin 16, (T.mdsCol (r - c)).toInt * ((canon S[c]).toNat : Int)) % (P : Int)

/-- 41_permutation_engine.md R109, R111. -/
def Obligations.PermuteRunsSevenRoundsOrFaults : Prop :=
  IsFrameOf 0x11 [] .permute ∧
  (∀ S : Sponge, permute tables S = (List.finRange 7).foldl (fun X i => roundFn tables i X) S ∧
    ∀ (k : Nat) (h : k < 16), (permute tables S)[k].toNat < P) ∧
  ∀ s : State,
    (s.regs = none → exec .permute s = .next { s with fault := true, cause := 4 }) ∧
    ∀ S : Sponge, s.regs = some S →
      (s.pos ≠ 0 → exec .permute s = .next { s with fault := true, cause := 5 }) ∧
      (s.pos = 0 → exec .permute s =
        .next { s with regs := some (permute tables S), responses := s.responses ++ [[]] })

/-- 41_permutation_engine.md R112: snapshot-major; snapshot 0 is the state as stored, snapshots 1 to 7 are canonical. -/
def Obligations.TraceReturnsEightSnapshotsOrFaults : Prop :=
  IsFrameOf 0x12 [] .trace ∧
  ∀ s : State,
    (s.regs = none → exec .trace s = .next { s with fault := true, cause := 4 }) ∧
    ∀ S : Sponge, s.regs = some S →
      (s.pos ≠ 0 → exec .trace s = .next { s with fault := true, cause := 5 }) ∧
      (s.pos = 0 → ∃ (t : Nat → Sponge) (r : List Word),
        t 0 = S ∧ (∀ (j : Nat) (h : j < 7), t (j + 1) = roundFn tables ⟨j, h⟩ (t j)) ∧
        r.length = 128 ∧
        (∀ (j k : Nat) (_ : j < 8) (hk : k < 16), r[16 * j + k]? = some (t j)[k]) ∧
        (∀ (j k : Nat) (_ : 1 ≤ j ∧ j < 8) (hk : k < 16), (t j)[k].toNat < P) ∧ t 7 = permute tables S ∧
        exec .trace s = .next { s with regs := some (t 7), responses := s.responses ++ [r] })

/-- 41_permutation_engine.md R112's "TRACE leaves the same `S` as PERMUTE": the two differ in the response alone, whatever the state. -/
def Obligations.TraceLeavesWhatPermuteLeaves : Prop :=
  ∀ s : State, ∃ t u : State, exec .trace s = .next t ∧ exec .permute s = .next u ∧
    t = { u with responses := t.responses } ∧ t.responses.length = u.responses.length

/-- 41_permutation_engine.md R113: legal for any `POS`. -/
def Obligations.RdstateReturnsAllWordsOrFaults : Prop :=
  IsFrameOf 0x13 [] .rdstate ∧
  ∀ s : State,
    (s.regs = none → exec .rdstate s = .next { s with fault := true, cause := 4 }) ∧
    ∀ S : Sponge, s.regs = some S →
      exec .rdstate s = .next { s with responses := s.responses ++ [(List.finRange 16).map fun k => S[k]] }

/-- 41_permutation_engine.md R114. -/
def Obligations.RddigestReturnsFirstFiveWordsOrFaults : Prop :=
  IsFrameOf 0x14 [] .rddigest ∧
  ∀ s : State,
    (s.regs = none → exec .rddigest s = .next { s with fault := true, cause := 4 }) ∧
    ∀ S : Sponge, s.regs = some S →
      (s.pos ≠ 0 → exec .rddigest s = .next { s with fault := true, cause := 5 }) ∧
      (s.pos = 0 → exec .rddigest s =
        .next { s with responses := s.responses ++ [[S[0], S[1], S[2], S[3], S[4]]] })

/-- The property of 41_permutation_engine.md R116 (derived there): words 4 to 15 are read through `val` only. -/
def Obligations.PermuteReadsUpperWordsModuloP : Prop :=
  ∀ (T : Tables) (S S' : Sponge),
    (∀ (k : Nat) (h : k < 16), if k < 4 then S[k] = S'[k] else S[k].toNat % P = S'[k].toNat % P) →
    permute T S = permute T S'

/-! ## Sponge controller -/

/-- 42_sponge_controller.md R130: the block replaces the rate part. -/
def Obligations.AbsorbOverwritesTheRateThenPermutesOrFaults : Prop :=
  ∀ b : Block, IsFrameOf 0x20 b.toList (.absorb b) ∧
  ∀ s : State,
    (s.regs = none → exec (.absorb b) s = .next { s with fault := true, cause := 4 }) ∧
    ∀ S : Sponge, s.regs = some S →
      (s.pos ≠ 0 → exec (.absorb b) s = .next { s with fault := true, cause := 5 }) ∧
      (s.pos = 0 → ∃ X : Sponge, (∀ (k : Nat) (h : k < 16), X[k] = if h' : k < 10 then b[k] else S[k]) ∧
        exec (.absorb b) s = .next { s with regs := some (permute tables X), responses := s.responses ++ [[]] })

/-- 42_sponge_controller.md R131: squeeze, then permute. -/
def Obligations.SqueezeReturnsTheRateThenPermutesOrFaults : Prop :=
  IsFrameOf 0x21 [] .squeeze ∧
  ∀ s : State,
    (s.regs = none → exec .squeeze s = .next { s with fault := true, cause := 4 }) ∧
    ∀ S : Sponge, s.regs = some S →
      (s.pos ≠ 0 → exec .squeeze s = .next { s with fault := true, cause := 5 }) ∧
      (s.pos = 0 → exec .squeeze s =
        .next { s with regs := some (permute tables S),
                       responses := s.responses ++ [(List.finRange 10).map fun k => S[k.val]] })

/-- 42_sponge_controller.md R136. -/
def Obligations.PushWritesAtPosAndPermutesAFullBlockOrFaults : Prop :=
  ∀ w : Word, IsFrameOf 0x22 [w] (.push w) ∧
  ∀ s : State,
    (s.regs = none → exec (.push w) s = .next { s with fault := true, cause := 4 }) ∧
    ∀ S : Sponge, s.regs = some S →
      ∃ X : Sponge, (∀ (k : Nat) (h : k < 16), X[k] = if k = s.pos.val then w else S[k]) ∧
        (s.pos = 9 → exec (.push w) s =
          .next { s with regs := some (permute tables X), pos := 0, responses := s.responses ++ [[]] }) ∧
        (s.pos ≠ 9 → ∃ p : Fin 10, p.val = s.pos.val + 1 ∧ exec (.push w) s =
          .next { s with regs := some X, pos := p, responses := s.responses ++ [[]] })

/-- 42_sponge_controller.md R137. -/
def Obligations.FinishPadsThenPermutesOrFaults : Prop :=
  IsFrameOf 0x23 [] .finish ∧
  ∀ s : State,
    (s.regs = none → exec .finish s = .next { s with fault := true, cause := 4 }) ∧
    ∀ S : Sponge, s.regs = some S →
      ∃ X : Sponge,
        (∀ (k : Nat) (h : k < 16), X[k] =
          if k < s.pos.val then S[k] else if k = s.pos.val then ONE else if k < 10 then 0 else S[k]) ∧
        exec .finish s =
          .next { s with regs := some (permute tables X), pos := 0, responses := s.responses ++ [[]] }

/-- 42_sponge_controller.md R133, R138: the padded sequence cut into blocks and absorbed in order, `ceil((n+1)/10)` of them. -/
def Obligations.AbsorballAbsorbsThePaddedBlocksOrFaults : Prop :=
  ∀ x : List Word,
  (x.length < 2 ^ 32 → IsFrameOf (BitVec.ofNat 64 (x.length * 2 ^ 32 + 0x24)) x (.absorball x)) ∧
  ∀ s : State,
    (s.regs = none → exec (.absorball x) s = .next { s with fault := true, cause := 4 }) ∧
    ∀ S : Sponge, s.regs = some S →
      (s.pos ≠ 0 → exec (.absorball x) s = .next { s with fault := true, cause := 5 }) ∧
      (s.pos = 0 → ∃ blocks : List Block,
        (blocks.map fun b => b.toList).flatten = pad x ∧ blocks.length = (x.length + 1 + 9) / 10 ∧
        exec (.absorball x) s =
          .next { s with regs := some (blocks.foldl (absorb tables) S), pos := 0,
                         responses := s.responses ++ [[]] })

/-- 42_sponge_controller.md R132: the marker, `z` zeros, the length, and that padding is injective. -/
def Obligations.PaddingHasTheStatedLengthAndIsInjective : Prop :=
  (∀ x : List Word, ∃ z : Nat, z = (10 - (x.length + 1) % 10) % 10 ∧ z ≤ 9 ∧
    pad x = x ++ [ONE] ++ List.replicate z 0 ∧ (pad x).length = 10 * ((x.length + 1 + 9) / 10)) ∧
  ∀ x y : List Word, pad x = pad y → x = y

/-- 42_sponge_controller.md R143: no hypothesis on the state. -/
def Obligations.Hash10HashesTheBlockFromTheFixedDomain : Prop :=
  ∀ b : Block, IsFrameOf 0x28 b.toList (.hash10 b) ∧
  ∀ s : State, ∃ X H : Sponge,
    (∀ (k : Nat) (h : k < 16), X[k] = if h' : k < 10 then b[k] else ONE) ∧ H = permute tables X ∧
    exec (.hash10 b) s =
      .next { s with regs := some H, pos := 0, responses := s.responses ++ [[H[0], H[1], H[2], H[3], H[4]]] }

/-- 42_sponge_controller.md R145. -/
def Obligations.HashpairIsHash10OfTheConcatenation : Prop :=
  ∀ a b : Digest, IsFrameOf 0x29 (a.toList ++ b.toList) (.hashpair a b) ∧
  ∃ c : Block, c.toList = a.toList ++ b.toList ∧
    ∀ s : State, ∃ t : State, exec (.hash10 c) s = .next t ∧ exec (.hashpair a b) s = .next t

/-- 42_sponge_controller.md R147: from the all-zero state of the variable-length domain; no hypothesis on the state. -/
def Obligations.HashvarlenHashesThePaddedSequence : Prop :=
  ∀ x : List Word,
  (x.length < 2 ^ 32 → IsFrameOf (BitVec.ofNat 64 (x.length * 2 ^ 32 + 0x2A)) x (.hashvarlen x)) ∧
  ∀ s : State, ∃ (Z H : Sponge) (blocks : List Block),
    (∀ (k : Nat) (h : k < 16), Z[k] = 0) ∧
    (blocks.map fun b => b.toList).flatten = pad x ∧ H = blocks.foldl (absorb tables) Z ∧
    exec (.hashvarlen x) s =
      .next { s with regs := some H, pos := 0, responses := s.responses ++ [[H[0], H[1], H[2], H[3], H[4]]] }

/-- 42_sponge_controller.md R147's "Equal in effect to `INIT V`, `ABSORBALL x`, `RDDIGEST`": the same state and the same digest, the
two other responses empty. -/
def Obligations.HashvarlenIsInitAbsorballRddigest : Prop :=
  ∀ (x : List Word) (s : State), ∃ (t : State) (d : List Word),
    exec (.hashvarlen x) s = .next { t with responses := s.responses ++ [d] } ∧
    execAll [.init .variableLength, .absorball x, .rddigest] s =
      .next { t with responses := s.responses ++ [[], [], d] }

/-- 42_sponge_controller.md R139 (derived there), of the machine itself: the frames PUSH x0, …, PUSH x(n-1), FINISH at the front of
the command stream leave after n + 1 steps what ABSORBALL x leaves. -/
def Obligations.StreamedFramesEqualAbsorball : Prop :=
  ∀ (x : List Word) (s : State) (S : Sponge) (rest : List Frame),
    s.regs = some S → s.pos = 0 → s.fault = false → s.resetLine = false →
    s.commands = x.map (fun w => encode (.push w)) ++ encode .finish :: rest →
    ∃ S' : Sponge,
      Sys2Proof.core.run (x.length + 1) s =
        .next { s with regs := some S', commands := rest,
                       responses := s.responses ++ List.replicate (x.length + 1) [] } ∧
      exec (.absorball x) s = .next { s with regs := some S', responses := s.responses ++ [[]] }

/-- 42_sponge_controller.md R148: what a hash command leaves and answers does not depend on the state before it. -/
def Obligations.HashCommandsIgnoreThePreviousState : Prop :=
  ∀ i : Instr, i.isHash = true → ∃ (S : Sponge) (r : List Word), r.length = 5 ∧
    ∀ s : State, exec i s = .next { s with regs := some S, pos := 0, responses := s.responses ++ [r] }

/-! ## Faults, halt and reset -/

/-- 60_exceptions.md R160, R162 (steps 4 to 6), 30_encoding.md R45: the first failing check is taken as a fault; if none fails, the
command leaves exactly one response frame and no fault. -/
def Obligations.CommandsTakeTheFirstFailingCheck : Prop :=
  ∀ (i : Instr) (s : State),
    (∀ c : BitVec 8, firstFault i s = some c → exec i s = .next { s with fault := true, cause := c }) ∧
    (firstFault i s = none → ∃ (R : Option Sponge) (p : Fin 10) (r : List Word),
      exec i s = .next { s with regs := R, pos := p, responses := s.responses ++ [r] })

/-- 60_exceptions.md R162 for one step: halted, header, count, then the command's own checks. -/
def Obligations.StepChecksInTheStatedOrder : Prop :=
  ∀ (s : State) (f : Frame) (rest : List Frame), s.resetLine = false → s.commands = f :: rest →
    (s.fault = true → step s = .next { s with commands := rest }) ∧
    (s.fault = false →
      (¬ LegalHeader f.hdr → step s = .next { s with commands := rest, fault := true, cause := 2 }) ∧
      (LegalHeader f.hdr →
        (f.pay.length ≠ requiredPayload f.hdr →
          step s = .next { s with commands := rest, fault := true, cause := 3 }) ∧
        (f.pay.length = requiredPayload f.hdr → ∃ i : Instr, decode f = .ok i ∧
          (∀ c : BitVec 8, firstFault i s = some c →
            step s = .next { s with commands := rest, fault := true, cause := c }) ∧
          (firstFault i s = none → ∃ (R : Option Sponge) (p : Fin 10) (r : List Word),
            step s = .next { s with commands := rest, regs := R, pos := p,
                                    responses := s.responses ++ [r] }))))

/-- 60_exceptions.md R163: whenever a step raises a fault, `FAULT` and `CAUSE` are all that changes, beside the frame consumed. -/
def Obligations.FaultEntryWritesOnlyFaultAndCause : Prop :=
  ∀ s t : State, s.fault = false → step s = .next t → t.fault = true →
    ∃ (f : Frame) (rest : List Frame) (c : BitVec 8), s.commands = f :: rest ∧ 1 ≤ c.toNat ∧ c.toNat ≤ 5 ∧
      t = { s with commands := rest, fault := true, cause := c }

/-- 60_exceptions.md R165: a halted unit consumes and discards one frame a step; after any number of steps all that changed is the
command stream. -/
def Obligations.HaltedUnitOnlyDiscardsFrames : Prop :=
  ∀ (n : Nat) (s : State), s.fault = true → s.resetLine = false →
    Sys2Proof.core.run n s = .next { s with commands := s.commands.drop n }

/-- 60_exceptions.md R165, R166: no host action but reset clears the halt, and reset restores the reset state (70_reset_and_hazards.md
R180: by being asserted; the delivery of words and the two streams are the model's, log entries 8 and 9, and so is the input as a level
that a release clears, log entry 3). -/
def Obligations.OnlyResetLeavesTheHalt : Prop :=
  ∀ s : State, s.fault = true →
    (∀ w : Word, (s.deliver w).fault = true ∧ (s.deliver w).cause = s.cause) ∧
    (s.endFrame.fault = true ∧ s.endFrame.cause = s.cause) ∧
    (∀ f : Frame, (s.send f).fault = true ∧ (s.send f).cause = s.cause) ∧
    (∀ (r : List Word) (t : State), s.receive = some (r, t) → t.fault = true ∧ t.cause = s.cause) ∧
    (∀ t : State, s.resetLine = false → step s = .next t → t.fault = true ∧ t.cause = s.cause) ∧
    s.assertReset.fault = false ∧ s.assertReset.releaseReset = State.reset

/-- 10_state.md R23 and 70_reset_and_hazards.md R180: the reset values, from any state, and the unit held there by its reset input
(that a step holds it is the model's choice, log entry 3). -/
def Obligations.ResetLeavesTheStatedValues : Prop :=
  (State.reset.regs = none ∧ State.reset.valid = false ∧ State.reset.fault = false ∧ State.reset.cause = 0 ∧
    State.reset.pos = 0 ∧ State.reset.incoming = [] ∧ State.reset.commands = [] ∧ State.reset.responses = [] ∧
    State.reset.status = 0) ∧
  ∀ s : State, s.assertReset.releaseReset = State.reset ∧
    (s.resetLine = true → step s = .next { State.reset with resetLine := true })

/-- The MODEL's choice, log entry 7 (DESIGN CHOICE): with no frame waiting there is a step all the same, and it leaves the state as it
is, any number of times. 10_state.md R10 speaks of no such step; 60_exceptions.md R179 says only that the unit holds its state between
commands for any length of time. -/
def Obligations.IdleUnitHoldsItsState : Prop :=
  ∀ (n : Nat) (s : State), s.resetLine = false → s.commands = [] → Sys2Proof.core.run n s = .next s

/-! ## Encoding -/

/-- 30_encoding.md R50, R51: each frame is exactly one of `E_ILLEGAL`, `E_LENGTH`, a command, as the header and the count say. -/
def Obligations.DecodeAnswersAsHeaderAndCountSay : Prop :=
  ∀ f : Frame,
    (¬ LegalHeader f.hdr ↔ decode f = .error .illegal) ∧
    (LegalHeader f.hdr ∧ f.pay.length ≠ requiredPayload f.hdr ↔ decode f = .error .length) ∧
    (LegalHeader f.hdr ∧ f.pay.length = requiredPayload f.hdr ↔ ∃ i : Instr, decode f = .ok i)

/-- Decode and encode agree on every well-formed command (30_encoding.md R46 to R51). -/
def Obligations.DecodeOfEncodeIsTheCommand : Prop :=
  ∀ i : Instr, i.wf = true → decode (encode i) = .ok i

/-- Each command has one frame (30_encoding.md R50: every reserved bit is checked). -/
def Obligations.EncodeOfDecodeIsTheFrame : Prop :=
  ∀ (f : Frame) (i : Instr), decode f = .ok i → encode i = f ∧ i.wf = true

/-- Frames written out from 30_encoding.md R46 and R49, one or more of each part. -/
def Obligations.FramesOfTheSpecDecode : Prop :=
  decode ⟨0x0000000000000001, [5]⟩ = .ok (.fromint 5) ∧
  decode ⟨0x0000000000000003, [7, 9]⟩ = .ok (.montred 7 9) ∧
  decode ⟨0x0000000000000009, [7, 9]⟩ = .ok (.div 7 9) ∧
  decode ⟨0x0000000000000110, []⟩ = .ok (.init .fixedLength) ∧
  decode ⟨0x0000000000000012, []⟩ = .ok .trace ∧
  decode ⟨0x0000000000000022, [3]⟩ = .ok (.push 3) ∧
  decode ⟨0x0000000000000029, [1, 2, 3, 4, 5, 6, 7, 8, 9, 10]⟩ =
    .ok (.hashpair #v[1, 2, 3, 4, 5] #v[6, 7, 8, 9, 10]) ∧
  decode ⟨0x000000020000002A, [1, 2]⟩ = .ok (.hashvarlen [1, 2])

/-- A step runs the decoded command: with a frame of it at the front of the command stream, reset released and no fault, the step is
`exec` on the state with that frame consumed (10_state.md R10; 30_encoding.md R45). -/
def Obligations.StepRunsTheDecodedCommand : Prop :=
  ∀ (s : State) (f : Frame) (rest : List Frame) (i : Instr),
    s.resetLine = false → s.fault = false → s.commands = f :: rest → decode f = .ok i →
    step s = exec i { s with commands := rest }

/-! ## Invariants and whole-machine rules -/

/-- `State.Inv` holds at reset. -/
def Obligations.InvariantHoldsAtReset : Prop := State.reset.Inv

/-- Every step keeps `State.Inv` (10_state.md R14, R18, R19). -/
def Obligations.EveryStepKeepsTheInvariant : Prop :=
  ∀ s t : State, s.Inv → step s = .next t → t.Inv

/-- 10_state.md R14's last sentence (derived there): every word the T5U returns is canonical, but for RDSTATE's words below `POS`. -/
def Obligations.ResponsesAreCanonicalExceptPushedWords : Prop :=
  ∀ (i : Instr) (s t : State), s.Inv → exec i s = .next t →
    (t.responses = s.responses ∨ ∃ r : List Word, t.responses = s.responses ++ [r] ∧
      ∀ (k : Nat) (w : Word), r[k]? = some w → w.toNat < P ∨ (i = .rdstate ∧ k < s.pos.val))

/-- 10_state.md R18, row VALID: set only by INIT, HASH10, HASHPAIR, HASHVARLEN, cleared only by reset. -/
def Obligations.ValidIsSetOnlyByStartingCommands : Prop :=
  ∀ s t : State, s.resetLine = false → step s = .next t →
    (s.valid = true → t.valid = true) ∧
    (s.valid = false → (t.valid = true ↔ ∃ (f : Frame) (rest : List Frame) (i : Instr),
      s.commands = f :: rest ∧ s.fault = false ∧ decode f = .ok i ∧ i.startsState = true))

/-- 10_state.md R18: the bits of the status port. -/
def Obligations.StatusPortHasTheStatedBits : Prop :=
  ∀ (s : State) (b : Nat), s.status.getLsbD b =
    if b = 0 then s.valid
    else if b = 1 then s.fault
    else if 4 ≤ b ∧ b < 8 then s.pos.val.testBit (b - 4)
    else if 8 ≤ b ∧ b < 16 then s.cause.getLsbD (b - 8)
    else false

/-- 10_state.md R19: which commands set `POS`, to what, and which fault while it is not 0. -/
def Obligations.PosFollowsTheRatePositionRule : Prop :=
  ∀ (i : Instr) (s : State),
    (firstFault i s = none → ∃ t : State, exec i s = .next t ∧
      (i.startsState = true ∨ i = .finish ∨ (∃ x, i = .absorball x) → t.pos.val = 0) ∧
      ((∃ w, i = .push w) → t.pos.val = (s.pos.val + 1) % 10) ∧
      (i.startsState = false → i ≠ .finish → (∀ x, i ≠ .absorball x) → (∀ w, i ≠ .push w) → t.pos = s.pos)) ∧
    (s.regs ≠ none → s.pos ≠ 0 →
      (i = .permute ∨ i = .trace ∨ i = .rddigest ∨ (∃ b, i = .absorb b) ∨ i = .squeeze ∨ (∃ x, i = .absorball x)) →
      exec i s = .next { s with fault := true, cause := 5 })

/-- What does not write `S`, and which words of `S` a command does not read: the FAU commands, RDSTATE, RDDIGEST, INIT, the hash
commands and ABSORB by the access table of 10_state.md R12. For FINISH that table says "all"; that the words `S[POS..9]` decide nothing
follows from 42_sponge_controller.md R137, which overwrites them before the permutation. -/
def Obligations.CommandsTouchOnlyTheirSpongeWords : Prop :=
  (∀ (i : Instr) (s t : State), i.isFau = true ∨ i = .rdstate ∨ i = .rddigest → exec i s = .next t →
    t.regs = s.regs ∧ t.pos = s.pos) ∧
  (∀ (i : Instr) (s : State) (R R' : Option Sponge) (p p' : Fin 10), i.startsState = true →
    exec i { s with regs := R, pos := p } = exec i { s with regs := R', pos := p' }) ∧
  (∀ (s : State) (b : Block) (S S' : Sponge),
    (∀ (k : Nat) (h : k < 16), 10 ≤ k → S[k] = S'[k]) → s.pos = 0 →
    exec (.absorb b) { s with regs := some S } = exec (.absorb b) { s with regs := some S' }) ∧
  (∀ (s : State) (S S' : Sponge),
    (∀ (k : Nat) (h : k < 16), k < s.pos.val ∨ 10 ≤ k → S[k] = S'[k]) →
    exec .finish { s with regs := some S } = exec .finish { s with regs := some S' })

/-- 20_memory.md R36: the commands it lists as idempotent leave on a second sending the state and the response of the first. -/
def Obligations.ListedCommandsAreIdempotent : Prop :=
  ∀ (i : Instr) (s : State), i.isFau = true ∨ i.startsState = true ∨ i = .rdstate ∨ i = .rddigest →
    firstFault i s = none →
    ∃ (t : State) (r : List Word),
      exec i s = .next { t with responses := s.responses ++ [r] } ∧
      exec i { t with responses := s.responses ++ [r] } = .next { t with responses := s.responses ++ [r] ++ [r] }
end

