-- ==== Sys2Proof/Laws/Decode.lean ====
section
/-! SUPPORT. The header fields, the opcode map both ways, and everything the decoder can answer. -/

namespace Sys2Proof.Laws

theorem opcodeOf_code (op : Opcode) : opcodeOf op.code = some op := by cases op <;> rfl

/-- The opcode map is one to one: a code names an opcode only if it is that opcode's code. -/
theorem opcodeOf_some {c : BitVec 8} {op : Opcode} (h : opcodeOf c = some op) : c = op.code := by
  revert c op; decide +kernel

theorem opcField_toNat (hdr : Word) : (opcField hdr).toNat = hdr.toNat % 2 ^ 8 := by
  simp [opcField, BitVec.extractLsb'_toNat]

theorem argField_toNat (hdr : Word) : (argField hdr).toNat = hdr.toNat / 2 ^ 8 % 2 ^ 8 := by
  simp [argField, BitVec.extractLsb'_toNat, Nat.shiftRight_eq_div_pow]

theorem rsvField_toNat (hdr : Word) : (rsvField hdr).toNat = hdr.toNat / 2 ^ 16 % 2 ^ 16 := by
  simp [rsvField, BitVec.extractLsb'_toNat, Nat.shiftRight_eq_div_pow]

theorem lenField_toNat (hdr : Word) : (lenField hdr).toNat = hdr.toNat / 2 ^ 32 := by
  simp only [lenField, BitVec.extractLsb'_toNat, Nat.shiftRight_eq_div_pow]
  have := hdr.isLt
  omega

theorem headerOf_toNat (op : Opcode) (a : BitVec 8) (n : BitVec 32) :
    (headerOf op a n).toNat = op.code.toNat + 2 ^ 8 * a.toNat + 2 ^ 32 * n.toNat := by
  rw [headerOf, BitVec.toNat_ofNat]
  have := op.code.isLt
  have := a.isLt
  have := n.isLt
  omega

theorem opcField_headerOf (op : Opcode) (a : BitVec 8) (n : BitVec 32) : opcField (headerOf op a n) = op.code := by
  apply BitVec.eq_of_toNat_eq
  rw [opcField_toNat, headerOf_toNat]
  have := op.code.isLt
  omega

theorem argField_headerOf (op : Opcode) (a : BitVec 8) (n : BitVec 32) : argField (headerOf op a n) = a := by
  apply BitVec.eq_of_toNat_eq
  rw [argField_toNat, headerOf_toNat]
  have := op.code.isLt
  have := a.isLt
  omega

theorem rsvField_headerOf (op : Opcode) (a : BitVec 8) (n : BitVec 32) : rsvField (headerOf op a n) = 0 := by
  apply BitVec.eq_of_toNat_eq
  rw [rsvField_toNat, headerOf_toNat]
  change _ = 0
  have := op.code.isLt
  have := a.isLt
  omega

theorem lenField_headerOf (op : Opcode) (a : BitVec 8) (n : BitVec 32) : lenField (headerOf op a n) = n := by
  apply BitVec.eq_of_toNat_eq
  rw [lenField_toNat, headerOf_toNat]
  have := op.code.isLt
  have := a.isLt
  omega

/-- A header whose reserved bits are 0 is made of its three other fields. -/
theorem headerOf_fields {hdr : Word} {op : Opcode} (ho : opcField hdr = op.code) (hr : rsvField hdr = 0) :
    headerOf op (argField hdr) (lenField hdr) = hdr := by
  apply BitVec.eq_of_toNat_eq
  have hr' := congrArg BitVec.toNat hr
  rw [rsvField_toNat] at hr'
  change _ = 0 at hr'
  rw [headerOf_toNat, ← ho, opcField_toNat, argField_toNat, lenField_toNat]
  omega

/-- The three answers of the decoder (30_encoding.md R50, R51). -/
theorem decode_cases (f : Frame) :
    (opcodeOf (opcField f.hdr) = none ∧ decode f = .error .illegal) ∨
    ∃ op, opcodeOf (opcField f.hdr) = some op ∧
      ((op.headerLegal f.hdr = false ∧ decode f = .error .illegal) ∨
       (op.headerLegal f.hdr = true ∧ f.pay.length ≠ op.npay f.hdr ∧ decode f = .error .length) ∨
       (op.headerLegal f.hdr = true ∧ f.pay.length = op.npay f.hdr ∧ decode f = .ok (assemble op f))) := by
  cases ho : opcodeOf (opcField f.hdr) with
  | none => exact .inl ⟨rfl, by simp [decode, ho]⟩
  | some op =>
    refine .inr ⟨op, rfl, ?_⟩
    cases hl : op.headerLegal f.hdr with
    | false => exact .inl ⟨rfl, by simp [decode, ho, hl]⟩
    | true =>
      by_cases hn : f.pay.length = op.npay f.hdr
      · exact .inr (.inr ⟨rfl, hn, by simp [decode, ho, hl, hn]⟩)
      · exact .inr (.inl ⟨rfl, hn, by simp [decode, ho, hl, hn]⟩)

theorem payWords_getElem (pay : List Word) (start n k : Nat) (h : k < n) :
    (payWords pay start n)[k] = payWord pay (start + k) := by
  simp [payWords]

end Sys2Proof.Laws
end

