-- ==== Sys2Proof/Laws/Field.lean ====
section
/-! SUPPORT. The field functions as arithmetic modulo `P`: their values, that they are canonical, and that repeated squaring is
the power of 40_field_unit.md R78. -/

namespace Sys2Proof.Laws

open Machine Config

theorem toNat_ofNat_mod (n : Nat) : (BitVec.ofNat 64 (n % P)).toNat = n % P := by
  rw [BitVec.toNat_ofNat]
  exact Nat.mod_eq_of_lt (lt_trans (Nat.mod_lt _ (by norm_num)) (by norm_num))

theorem toNat_ofInt_mod (z : Int) : (BitVec.ofInt 64 (z % (P : Int))).toNat = (z % (P : Int)).toNat := by
  have h0 : 0 ≤ z % (P : Int) := Int.emod_nonneg _ (by norm_num)
  have h1 : z % (P : Int) < P := Int.emod_lt_of_pos _ (by norm_num)
  rw [BitVec.toNat_ofInt, Int.emod_eq_of_lt h0 (lt_trans h1 (by norm_num))]

theorem montred_toNat (x : Nat) : (montred x).toNat = x * RINV % P := toNat_ofNat_mod _

theorem fadd_toNat (a b : Word) : (fadd a b).toNat = (a.toNat + b.toNat) % P := toNat_ofNat_mod _

theorem fsub_toNat (a b : Word) : ((fsub a b).toNat : Int) = ((a.toNat : Int) - b.toNat) % (P : Int) := by
  rw [fsub, toNat_ofInt_mod, Int.toNat_of_nonneg (Int.emod_nonneg _ (by norm_num))]

theorem fmul_toNat (a b : Word) : (fmul a b).toNat = a.toNat * b.toNat * RINV % P := toNat_ofNat_mod _

theorem montred_canonical (x : Nat) : Canonical (montred x) := by
  rw [Canonical, montred_toNat]; exact Nat.mod_lt _ (by norm_num)

theorem fadd_canonical (a b : Word) : Canonical (fadd a b) := by
  rw [Canonical, fadd_toNat]; exact Nat.mod_lt _ (by norm_num)

theorem fsub_canonical (a b : Word) : Canonical (fsub a b) := by
  have h := fsub_toNat a b
  have h1 : ((a.toNat : Int) - b.toNat) % (P : Int) < P := Int.emod_lt_of_pos _ (by norm_num)
  rw [Canonical]; omega

theorem fmul_canonical (a b : Word) : Canonical (fmul a b) := montred_canonical _

theorem one_canonical : Canonical ONE := by decide

theorem fpow_canonical (a : Word) (e : Nat) : Canonical (fpow a e) := by
  cases e with
  | zero => exact one_canonical
  | succ e => exact fmul_canonical _ _

/-- A raw word as the residue it holds (`val`), in the integers modulo `P`. -/
def residue (w : Word) : ZMod P := (w.toNat : ZMod P)

/-- Canonical words are equal when their residues are. -/
theorem eq_of_residue {a b : Word} (ha : Canonical a) (hb : Canonical b) (h : residue a = residue b) : a = b := by
  have h' := (ZMod.natCast_eq_natCast_iff' _ _ _).mp h
  rw [Nat.mod_eq_of_lt ha, Nat.mod_eq_of_lt hb] at h'
  exact BitVec.eq_of_toNat_eq h'

theorem residue_eq_iff (a b : Word) : residue a = residue b ↔ val a = val b :=
  ZMod.natCast_eq_natCast_iff' _ _ _

/-- `RINV` is the inverse of the Montgomery radix. -/
theorem rinv_radix : (RINV : ZMod P) * (2 ^ 64 : Nat) = 1 := by
  rw [← Nat.cast_mul, ← Nat.cast_one, ZMod.natCast_eq_natCast_iff']
  norm_num

theorem residue_one : residue ONE = ((2 ^ 64 : Nat) : ZMod P) := by
  rw [residue, ZMod.natCast_eq_natCast_iff']; rfl

theorem residue_montred (x : Nat) : residue (montred x) = (x : ZMod P) * RINV := by
  rw [residue, montred_toNat, ZMod.natCast_mod, Nat.cast_mul]

theorem residue_fadd (a b : Word) : residue (fadd a b) = residue a + residue b := by
  rw [residue, fadd_toNat, ZMod.natCast_mod, Nat.cast_add]; rfl

theorem residue_fsub (a b : Word) : residue (fsub a b) = residue a - residue b := by
  have h : (((fsub a b).toNat : Int) : ZMod P) = (((a.toNat : Int) - b.toNat : Int) : ZMod P) := by
    rw [fsub_toNat]; exact ZMod.intCast_mod _ _
  simpa [residue] using h

theorem residue_fmul (a b : Word) : residue (fmul a b) = residue a * residue b * RINV := by
  rw [fmul, residue_montred, Nat.cast_mul]; rfl

/-- The Montgomery form of a power: dividing by the radix turns `fmul` into multiplication. -/
theorem residue_fpow (a : Word) (e : Nat) : residue (fpow a e) * RINV = (residue a * RINV) ^ e := by
  induction e with
  | zero => rw [fpow, residue_one, mul_comm, rinv_radix, pow_zero]
  | succ e ih => rw [fpow, residue_fmul, pow_succ, ← ih]; ring

theorem eq_of_residue_rinv {a b : Word} (ha : Canonical a) (hb : Canonical b)
    (h : residue a * RINV = residue b * RINV) : a = b := by
  refine eq_of_residue ha hb ?_
  calc residue a = residue a * RINV * (2 ^ 64 : Nat) := by rw [mul_assoc, rinv_radix, mul_one]
    _ = residue b * RINV * (2 ^ 64 : Nat) := by rw [h]
    _ = residue b := by rw [mul_assoc, rinv_radix, mul_one]

theorem fpowSquaring_canonical (fuel : Nat) (a : Word) (e : Nat) : Canonical (fpowSquaring fuel a e) := by
  induction fuel generalizing a e with
  | zero => exact one_canonical
  | succ fuel ih =>
    unfold fpowSquaring
    split
    · exact one_canonical
    · split
      · exact fmul_canonical _ _
      · exact ih _ _

theorem residue_fpowSquaring (fuel : Nat) (a : Word) (e : Nat) (h : e ≤ fuel) :
    residue (fpowSquaring fuel a e) * RINV = (residue a * RINV) ^ e := by
  induction fuel generalizing a e with
  | zero =>
    obtain rfl : e = 0 := by omega
    rw [fpowSquaring, residue_one, mul_comm, rinv_radix, pow_zero]
  | succ fuel ih =>
    unfold fpowSquaring
    have sq : residue (fmul a a) * RINV = (residue a * RINV) ^ 2 := by rw [residue_fmul]; ring
    split
    · subst e; rw [residue_one, mul_comm, rinv_radix, pow_zero]
    · split
      · have half := ih (fmul a a) (e / 2) (by omega)
        rw [sq, ← pow_mul] at half
        have he : e = 2 * (e / 2) + 1 := by omega
        conv_rhs => rw [he, pow_succ, ← half]
        rw [residue_fmul]; ring
      · have half := ih (fmul a a) (e / 2) (by omega)
        rw [sq, ← pow_mul] at half
        have he : e = 2 * (e / 2) := by omega
        conv_rhs => rw [he]
        exact half

/-- Repeated squaring computes the power of 40_field_unit.md R78. -/
theorem fpowSquaring_eq_fpow (fuel : Nat) (a : Word) (e : Nat) (h : e ≤ fuel) :
    fpowSquaring fuel a e = fpow a e :=
  eq_of_residue_rinv (fpowSquaring_canonical _ _ _) (fpow_canonical _ _)
    (by rw [residue_fpowSquaring _ _ _ h, residue_fpow])

/-- `finv(a) = fpow(a, P - 2)`, as 40_field_unit.md R78 defines it. -/
theorem finv_eq_fpow (a : Word) : finv a = fpow a (P - 2) := fpowSquaring_eq_fpow _ _ _ le_rfl

/-- A power of the raw word `w` of 7 is `ONE` exactly when the power of 7 modulo `P` is 1. -/
theorem seven_pow_eq_one_iff (e : Nat) : (7 : ZMod P) ^ e = 1 ↔ fpowSquaring e 0x00000006FFFFFFF9#64 e = ONE := by
  have h7 : residue 0x00000006FFFFFFF9#64 * RINV = ((7 : Nat) : ZMod P) := by
    rw [residue, ← Nat.cast_mul, ZMod.natCast_eq_natCast_iff']; rfl
  have hp := residue_fpowSquaring e 0x00000006FFFFFFF9#64 e le_rfl
  have h1 : residue ONE * RINV = 1 := by rw [residue_one, mul_comm, rinv_radix]
  rw [h7.trans Nat.cast_ofNat] at hp
  rw [← hp]
  constructor
  · intro h
    exact eq_of_residue_rinv (fpowSquaring_canonical _ _ _) one_canonical (h.trans h1.symm)
  · intro h
    rw [h, h1]

/-- The modulus is prime (00_scope.md R1): Lucas' test with the primitive root 7. -/
theorem modulus_prime : Nat.Prime P := by
  refine lucas_primality P (7 : ZMod P) ((seven_pow_eq_one_iff _).mpr (by decide +kernel)) ?_
  intro q hq hd
  have hfac : P - 1 = 2 ^ 32 * (3 * (5 * (17 * (257 * 65537)))) := by norm_num
  rw [hfac] at hd
  rw [Ne, seven_pow_eq_one_iff]
  have small : ∀ r : Nat, r.Prime → q ∣ r → q = r := fun r hr h => (Nat.prime_dvd_prime_iff_eq hq hr).mp h
  rcases hq.dvd_mul.mp hd with h | hd
  · obtain rfl := small 2 (by norm_num) (hq.dvd_of_dvd_pow h); decide +kernel
  rcases hq.dvd_mul.mp hd with h | hd
  · obtain rfl := small 3 (by norm_num) h; decide +kernel
  rcases hq.dvd_mul.mp hd with h | hd
  · obtain rfl := small 5 (by norm_num) h; decide +kernel
  rcases hq.dvd_mul.mp hd with h | hd
  · obtain rfl := small 17 (by norm_num) h; decide +kernel
  rcases hq.dvd_mul.mp hd with h | h
  · obtain rfl := small 257 (by norm_num) h; decide +kernel
  · obtain rfl := small 65537 (by norm_num) h; decide +kernel

end Sys2Proof.Laws
end

