-- ==== Sys2Proof/Laws/State.lean ====
section
/-! SUPPORT. What each update of the state does to each field: one lemma per field and update, true by rfl. -/

namespace Sys2Proof.Laws

open Machine

variable (s : State)

section Respond

@[simp] theorem respond_regs (r : List Word) : (s.respond r).regs = s.regs := rfl
@[simp] theorem respond_pos (r : List Word) : (s.respond r).pos = s.pos := rfl
@[simp] theorem respond_fault (r : List Word) : (s.respond r).fault = s.fault := rfl
@[simp] theorem respond_cause (r : List Word) : (s.respond r).cause = s.cause := rfl
@[simp] theorem respond_incoming (r : List Word) : (s.respond r).incoming = s.incoming := rfl
@[simp] theorem respond_commands (r : List Word) : (s.respond r).commands = s.commands := rfl
@[simp] theorem respond_responses (r : List Word) : (s.respond r).responses = s.responses ++ [r] := rfl
@[simp] theorem respond_resetLine (r : List Word) : (s.respond r).resetLine = s.resetLine := rfl

end Respond

section Load

@[simp] theorem load_regs (S : Sponge) (p : Fin 10) : (s.load S p).regs = some S := rfl
@[simp] theorem load_pos (S : Sponge) (p : Fin 10) : (s.load S p).pos = p := rfl
@[simp] theorem load_fault (S : Sponge) (p : Fin 10) : (s.load S p).fault = s.fault := rfl
@[simp] theorem load_cause (S : Sponge) (p : Fin 10) : (s.load S p).cause = s.cause := rfl
@[simp] theorem load_incoming (S : Sponge) (p : Fin 10) : (s.load S p).incoming = s.incoming := rfl
@[simp] theorem load_commands (S : Sponge) (p : Fin 10) : (s.load S p).commands = s.commands := rfl
@[simp] theorem load_responses (S : Sponge) (p : Fin 10) : (s.load S p).responses = s.responses := rfl
@[simp] theorem load_resetLine (S : Sponge) (p : Fin 10) : (s.load S p).resetLine = s.resetLine := rfl

end Load

section Raise

@[simp] theorem raise_regs (c : Cause) : (s.raise c).regs = s.regs := rfl
@[simp] theorem raise_pos (c : Cause) : (s.raise c).pos = s.pos := rfl
@[simp] theorem raise_fault (c : Cause) : (s.raise c).fault = true := rfl
@[simp] theorem raise_cause (c : Cause) : (s.raise c).cause = c.code := rfl
@[simp] theorem raise_incoming (c : Cause) : (s.raise c).incoming = s.incoming := rfl
@[simp] theorem raise_commands (c : Cause) : (s.raise c).commands = s.commands := rfl
@[simp] theorem raise_responses (c : Cause) : (s.raise c).responses = s.responses := rfl
@[simp] theorem raise_resetLine (c : Cause) : (s.raise c).resetLine = s.resetLine := rfl

end Raise

section Pushfront

@[simp] theorem pushFront_regs (f : Frame) : (s.pushFront f).regs = s.regs := rfl
@[simp] theorem pushFront_pos (f : Frame) : (s.pushFront f).pos = s.pos := rfl
@[simp] theorem pushFront_fault (f : Frame) : (s.pushFront f).fault = s.fault := rfl
@[simp] theorem pushFront_cause (f : Frame) : (s.pushFront f).cause = s.cause := rfl
@[simp] theorem pushFront_incoming (f : Frame) : (s.pushFront f).incoming = s.incoming := rfl
@[simp] theorem pushFront_commands (f : Frame) : (s.pushFront f).commands = f :: s.commands := rfl
@[simp] theorem pushFront_responses (f : Frame) : (s.pushFront f).responses = s.responses := rfl
@[simp] theorem pushFront_resetLine (f : Frame) : (s.pushFront f).resetLine = s.resetLine := rfl

end Pushfront

section Send

@[simp] theorem send_regs (f : Frame) : (s.send f).regs = s.regs := rfl
@[simp] theorem send_pos (f : Frame) : (s.send f).pos = s.pos := rfl
@[simp] theorem send_fault (f : Frame) : (s.send f).fault = s.fault := rfl
@[simp] theorem send_cause (f : Frame) : (s.send f).cause = s.cause := rfl
@[simp] theorem send_incoming (f : Frame) : (s.send f).incoming = s.incoming := rfl
@[simp] theorem send_commands (f : Frame) : (s.send f).commands = s.commands ++ [f] := rfl
@[simp] theorem send_responses (f : Frame) : (s.send f).responses = s.responses := rfl
@[simp] theorem send_resetLine (f : Frame) : (s.send f).resetLine = s.resetLine := rfl

end Send

section Deliver

@[simp] theorem deliver_regs (w : Word) : (s.deliver w).regs = s.regs := rfl
@[simp] theorem deliver_pos (w : Word) : (s.deliver w).pos = s.pos := rfl
@[simp] theorem deliver_fault (w : Word) : (s.deliver w).fault = s.fault := rfl
@[simp] theorem deliver_cause (w : Word) : (s.deliver w).cause = s.cause := rfl
@[simp] theorem deliver_incoming (w : Word) : (s.deliver w).incoming = s.incoming ++ [w] := rfl
@[simp] theorem deliver_commands (w : Word) : (s.deliver w).commands = s.commands := rfl
@[simp] theorem deliver_responses (w : Word) : (s.deliver w).responses = s.responses := rfl
@[simp] theorem deliver_resetLine (w : Word) : (s.deliver w).resetLine = s.resetLine := rfl

end Deliver

section Releasereset

@[simp] theorem releaseReset_regs : (s.releaseReset).regs = s.regs := rfl
@[simp] theorem releaseReset_pos : (s.releaseReset).pos = s.pos := rfl
@[simp] theorem releaseReset_fault : (s.releaseReset).fault = s.fault := rfl
@[simp] theorem releaseReset_cause : (s.releaseReset).cause = s.cause := rfl
@[simp] theorem releaseReset_incoming : (s.releaseReset).incoming = s.incoming := rfl
@[simp] theorem releaseReset_commands : (s.releaseReset).commands = s.commands := rfl
@[simp] theorem releaseReset_responses : (s.releaseReset).responses = s.responses := rfl
@[simp] theorem releaseReset_resetLine : (s.releaseReset).resetLine = false := rfl

end Releasereset

section Assertreset

@[simp] theorem assertReset_regs : (s.assertReset).regs = State.reset.regs := rfl
@[simp] theorem assertReset_pos : (s.assertReset).pos = State.reset.pos := rfl
@[simp] theorem assertReset_fault : (s.assertReset).fault = State.reset.fault := rfl
@[simp] theorem assertReset_cause : (s.assertReset).cause = State.reset.cause := rfl
@[simp] theorem assertReset_incoming : (s.assertReset).incoming = State.reset.incoming := rfl
@[simp] theorem assertReset_commands : (s.assertReset).commands = State.reset.commands := rfl
@[simp] theorem assertReset_responses : (s.assertReset).responses = State.reset.responses := rfl
@[simp] theorem assertReset_resetLine : (s.assertReset).resetLine = true := rfl

end Assertreset

@[simp] theorem reset_regs : State.reset.regs = none := rfl
@[simp] theorem reset_pos : State.reset.pos = 0 := rfl
@[simp] theorem reset_fault : State.reset.fault = false := rfl
@[simp] theorem reset_cause : State.reset.cause = 0 := rfl
@[simp] theorem reset_incoming : State.reset.incoming = [] := rfl
@[simp] theorem reset_commands : State.reset.commands = [] := rfl
@[simp] theorem reset_responses : State.reset.responses = [] := rfl
@[simp] theorem reset_resetLine : State.reset.resetLine = false := rfl

@[simp] theorem respond_valid (r : List Word) : (s.respond r).valid = s.valid := rfl
@[simp] theorem load_valid (S : Sponge) (p : Fin 10) : (s.load S p).valid = true := rfl
@[simp] theorem raise_valid (c : Cause) : (s.raise c).valid = s.valid := rfl

end Sys2Proof.Laws
end

