-- ==== Sys2Proof/Laws/Ops.lean ====
section
/-! SUPPORT. Once, for each shared operation, everything it can do. -/

namespace Sys2Proof.Laws

open Machine
open Host (Outcome)

variable {s : State}

/-- `withState` either takes `E_NOSTATE` or runs its command on the value of `S`. -/
theorem withState_cases (k : Sponge → Outcome State Fault Refusal) :
    (s.regs = none ∧ s.withState k = .next (s.raise .noState)) ∨
      ∃ S, s.regs = some S ∧ s.withState k = k S := by
  cases h : s.regs with
  | none => exact .inl ⟨rfl, by simp [State.withState, h]⟩
  | some S => exact .inr ⟨S, rfl, by simp [State.withState, h]⟩

theorem withState_none (k : Sponge → Outcome State Fault Refusal) (h : s.regs = none) :
    s.withState k = .next (s.raise .noState) := by simp [State.withState, h]

theorem withState_some (k : Sponge → Outcome State Fault Refusal) {S : Sponge} (h : s.regs = some S) :
    s.withState k = k S := by simp [State.withState, h]

/-- `withClosedBlock` takes `E_NOSTATE`, or takes `E_SEQ`, or runs its command on the value of `S` with `POS = 0`. -/
theorem withClosedBlock_cases (k : Sponge → Outcome State Fault Refusal) :
    (s.regs = none ∧ s.withClosedBlock k = .next (s.raise .noState)) ∨
      (∃ S, s.regs = some S ∧ s.pos ≠ 0 ∧ s.withClosedBlock k = .next (s.raise .seq)) ∨
      ∃ S, s.regs = some S ∧ s.pos = 0 ∧ s.withClosedBlock k = k S := by
  rcases withState_cases (s := s) (fun S => if s.pos = 0 then k S else .next (s.raise .seq)) with h | ⟨S, hS, h⟩
  · exact .inl h
  · by_cases hp : s.pos = 0
    · exact .inr (.inr ⟨S, hS, hp, by simpa [State.withClosedBlock, hp] using h⟩)
    · exact .inr (.inl ⟨S, hS, hp, by simpa [State.withClosedBlock, hp] using h⟩)

theorem withClosedBlock_none (k : Sponge → Outcome State Fault Refusal) (h : s.regs = none) :
    s.withClosedBlock k = .next (s.raise .noState) := by simp [State.withClosedBlock, State.withState, h]

theorem withClosedBlock_open (k : Sponge → Outcome State Fault Refusal) {S : Sponge} (h : s.regs = some S) (hp : s.pos ≠ 0) :
    s.withClosedBlock k = .next (s.raise .seq) := by simp [State.withClosedBlock, State.withState, h, hp]

theorem withClosedBlock_closed (k : Sponge → Outcome State Fault Refusal) {S : Sponge} (h : s.regs = some S) (hp : s.pos = 0) :
    s.withClosedBlock k = k S := by simp [State.withClosedBlock, State.withState, h, hp]

/-- `withNonzero` takes `E_INV_ZERO` or goes on. -/
theorem withNonzero_cases (a : Word) (k : Outcome State Fault Refusal) :
    (val a = 0 ∧ s.withNonzero a k = .next (s.raise .invZero)) ∨ (val a ≠ 0 ∧ s.withNonzero a k = k) := by
  by_cases h : val a = 0
  · exact .inl ⟨h, by simp [State.withNonzero, h]⟩
  · exact .inr ⟨h, by simp [State.withNonzero, h]⟩

/-- `fetch` takes the first frame off the command stream and changes nothing else. -/
theorem fetch_cases :
    (s.commands = [] ∧ s.fetch = none) ∨
      ∃ f rest, s.commands = f :: rest ∧ s.fetch = some (f, { s with commands := rest }) := by
  cases h : s.commands with
  | nil => exact .inl ⟨rfl, by simp [State.fetch, h]⟩
  | cons f rest => exact .inr ⟨f, rest, rfl, by simp [State.fetch, h]⟩

theorem fetch_pushFront (f : Frame) : (s.pushFront f).fetch = some (f, s) := rfl

/-- `receive` takes the first response frame off the response stream and changes nothing else. -/
theorem receive_cases :
    (s.responses = [] ∧ s.receive = none) ∨
      ∃ r rest, s.responses = r :: rest ∧ s.receive = some (r, { s with responses := rest }) := by
  cases h : s.responses with
  | nil => exact .inl ⟨rfl, by simp [State.receive, h]⟩
  | cons r rest => exact .inr ⟨r, rest, rfl, by simp [State.receive, h]⟩

/-- `endFrame` does nothing when no word was delivered, else appends the frame of the delivered words. -/
theorem endFrame_cases :
    (s.incoming = [] ∧ s.endFrame = s) ∨
      ∃ hdr pay, s.incoming = hdr :: pay ∧
        s.endFrame = { s with incoming := [], commands := s.commands ++ [{ hdr := hdr, pay := pay }] } := by
  cases h : s.incoming with
  | nil => exact .inl ⟨rfl, by simp [State.endFrame, h]⟩
  | cons hdr pay => exact .inr ⟨hdr, pay, rfl, by simp [State.endFrame, h]⟩

/-- Reset leaves nothing of the state before it. -/
theorem releaseReset_assertReset : s.assertReset.releaseReset = State.reset := rfl

/-- A cause code is one of 1 to 5. -/
theorem code_range (c : Cause) : 1 ≤ c.code.toNat ∧ c.code.toNat ≤ 5 := by cases c <;> decide

theorem code_ne_zero (c : Cause) : c.code ≠ 0 := by cases c <;> decide

end Sys2Proof.Laws
end

