-- ==== Sys2Proof/Laws/PerInstr.lean ====
section
/-! SUPPORT. Statements about every command as syntax, one lemma per constructor of Instr (LAWS.json names the families). -/

namespace Sys2Proof.Laws.HeaderFits

/-- The header the encoder writes names the command's opcode, is legal, and asks for exactly the payload the encoder writes, for
every well-formed command (30_encoding.md R46, R49, R50). -/
def Statement (i : Instr) : Prop :=
  i.wf = true →
    opcodeOf (opcField (encode i).hdr) = some i.opcode ∧
    i.opcode.headerLegal (encode i).hdr = true ∧
    (encode i).pay.length = i.opcode.npay (encode i).hdr

/-- What is left to show of a command once the header's fields are read back. -/
theorem of_fields {i : Instr} (harg : i.opcode.argLegal i.arg = true) (hlen : i.opcode.lenLegal i.len = true)
    (hn : i.wf = true → i.payload.length = i.opcode.npay (headerOf i.opcode i.arg i.len)) : Statement i := by
  intro hwf
  refine ⟨?_, ?_, hn hwf⟩
  · rw [encode, opcField_headerOf, opcodeOf_code]
  · simp [encode, Opcode.headerLegal, rsvField_headerOf, argField_headerOf, lenField_headerOf, harg, hlen]

theorem len_fits {x : List Word} (h : decide (x.length < 2 ^ 32) = true) (op : Opcode) (a : BitVec 8) :
    x.length = (lenField (headerOf op a (BitVec.ofNat 32 x.length))).toNat := by
  have h' : x.length < 2 ^ 32 := of_decide_eq_true h
  rw [lenField_headerOf, BitVec.toNat_ofNat, Nat.mod_eq_of_lt h']

theorem fromint (v : Word) : Statement (.fromint v) := of_fields rfl rfl fun _ => rfl
theorem canon (a : Word) : Statement (.canon a) := of_fields rfl rfl fun _ => rfl
theorem montred (lo hi : Word) : Statement (.montred lo hi) := of_fields rfl rfl fun _ => rfl
theorem add (a b : Word) : Statement (.add a b) := of_fields rfl rfl fun _ => rfl
theorem sub (a b : Word) : Statement (.sub a b) := of_fields rfl rfl fun _ => rfl
theorem mul (a b : Word) : Statement (.mul a b) := of_fields rfl rfl fun _ => rfl
theorem neg (a : Word) : Statement (.neg a) := of_fields rfl rfl fun _ => rfl
theorem inv (a : Word) : Statement (.inv a) := of_fields rfl rfl fun _ => rfl
theorem div (a b : Word) : Statement (.div a b) := of_fields rfl rfl fun _ => rfl
theorem init (d : Domain) : Statement (.init d) := by cases d <;> exact of_fields rfl rfl fun _ => rfl
theorem permute : Statement .permute := of_fields rfl rfl fun _ => rfl
theorem trace : Statement .trace := of_fields rfl rfl fun _ => rfl
theorem rdstate : Statement .rdstate := of_fields rfl rfl fun _ => rfl
theorem rddigest : Statement .rddigest := of_fields rfl rfl fun _ => rfl
theorem absorb (b : Block) : Statement (.absorb b) := of_fields rfl rfl fun _ => b.length_toList
theorem squeeze : Statement .squeeze := of_fields rfl rfl fun _ => rfl
theorem push (w : Word) : Statement (.push w) := of_fields rfl rfl fun _ => rfl
theorem finish : Statement .finish := of_fields rfl rfl fun _ => rfl
theorem absorball (x : List Word) : Statement (.absorball x) := of_fields rfl rfl fun h => len_fits h _ _
theorem hash10 (b : Block) : Statement (.hash10 b) := of_fields rfl rfl fun _ => b.length_toList
theorem hashpair (a b : Digest) : Statement (.hashpair a b) :=
  of_fields rfl rfl fun _ => by simp [Instr.payload, Instr.opcode, Opcode.npay]
theorem hashvarlen (x : List Word) : Statement (.hashvarlen x) := of_fields rfl rfl fun h => len_fits h _ _

end Sys2Proof.Laws.HeaderFits
end

