-- ==== Sys2Proof/Laws/Permutation.lean ====
section
/-! SUPPORT. The layers word by word, and that a round's and the permutation's words are canonical. -/

namespace Sys2Proof.Laws

open Machine Config

variable (T : Tables) (S : Sponge)

/-- The eight bytes do not overlap: the sum of 20_memory.md R32 is below `2^64`. -/
theorem ofBytes_toNat (b : Fin 8 → Byte) :
    (ofBytes b).toNat = (b 0).toNat + 2 ^ 8 * (b 1).toNat + 2 ^ 16 * (b 2).toNat + 2 ^ 24 * (b 3).toNat +
      2 ^ 32 * (b 4).toNat + 2 ^ 40 * (b 5).toNat + 2 ^ 48 * (b 6).toNat + 2 ^ 56 * (b 7).toNat := by
  have h : ∀ i, (b i).toNat < 256 := fun i => (b i).isLt
  have h0 := h 0; have h1 := h 1; have h2 := h 2; have h3 := h 3
  have h4 := h 4; have h5 := h 5; have h6 := h 6; have h7 := h 7
  rw [ofBytes, BitVec.toNat_ofNat, Nat.mod_eq_of_lt]
  omega

theorem initSponge_getElem (d : Domain) (k : Nat) (h : k < 16) :
    (initSponge d)[k] = if k < 10 then 0 else match d with
      | .fixedLength => ONE
      | .variableLength => 0 := by
  cases d <;> simp [initSponge]

theorem initSponge_canonical (d : Domain) (k : Nat) (h : k < 16) : Canonical (initSponge d)[k] := by
  rw [initSponge_getElem]
  split
  · decide
  · cases d <;> decide

theorem sboxLayer_getElem (k : Nat) (h : k < 16) :
    (sboxLayer T S)[k] = if k < 4 then sboxLookup T S[k] else pow7 S[k] := by
  simp [sboxLayer]

theorem mdsLayer_getElem (k : Nat) (h : k < 16) :
    (mdsLayer T S)[k] = BitVec.ofInt 64 (mdsRow T S ⟨k, h⟩ % (P : Int)) := by
  simp [mdsLayer]

theorem rcLayer_getElem (i : Fin 7) (k : Nat) (h : k < 16) :
    (rcLayer T i S)[k] = fadd S[k] (roundConstant T i ⟨k, h⟩) := by
  simp [rcLayer]

theorem roundFn_canonical (i : Fin 7) (k : Nat) (h : k < 16) : Canonical (roundFn T i S)[k] := by
  rw [roundFn, rcLayer_getElem]; exact fadd_canonical _ _

theorem permute_canonical (k : Nat) (h : k < 16) : Canonical (permute T S)[k] := roundFn_canonical ..

/-- The states after each round, as TRACE records them, end in the permutation's result. -/
theorem snapshot_seven : snapshot T S 7 = permute T S := rfl

theorem snapshot_succ {j : Nat} (h : j < 7) : snapshot T S (j + 1) = roundFn T ⟨j, h⟩ (snapshot T S j) := by
  rw [snapshot, dif_pos h]

theorem snapshot_canonical (j : Nat) (h0 : 0 < j) (k : Nat) (h : k < 16) : Canonical (snapshot T S j)[k] := by
  induction j with
  | zero => omega
  | succ j ih =>
    unfold snapshot
    split
    · exact roundFn_canonical ..
    · exact ih (by omega)

end Sys2Proof.Laws
end

