-- ==== Sys2Proof/Laws/Sponge.lean ====
section
/-! SUPPORT. Absorption, padding and the writes of PUSH and FINISH, word by word. -/

namespace Sys2Proof.Laws

open Machine Config

variable (T : Tables) (S : Sponge)

theorem overwriteRate_getElem (b : Block) (k : Nat) (h : k < 16) :
    (overwriteRate S b)[k] = if h' : k < 10 then b[k] else S[k] := by
  simp [overwriteRate]

theorem closeBlock_getElem (p : Fin 10) (k : Nat) (h : k < 16) :
    (closeBlock S p)[k] = if k = p.val then ONE else if p.val < k ∧ k < 10 then 0 else S[k] := by
  simp [closeBlock]

theorem writeAt_getElem (p : Fin 10) (w : Word) (k : Nat) (h : k < 16) :
    (writeAt S p w)[k] = if p.val = k then w else S[k] := by
  simp [writeAt, Vector.getElem_set]

theorem absorb_canonical (b : Block) (k : Nat) (h : k < 16) : Canonical (absorb T S b)[k] := permute_canonical ..

/-- A padded sequence is a whole number of blocks, one more than the input fills. -/
theorem pad_length (x : List Word) : (pad x).length = 10 * (x.length / 10 + 1) := by
  simp only [pad, padZeros, List.length_append, List.length_cons, List.length_nil, List.length_replicate]
  omega

theorem pad_blocks (x : List Word) : (pad x).length / 10 = x.length / 10 + 1 := by
  rw [pad_length]; omega

theorem absorbBlocks_canonical (m : Nat) (y : List Word) (hm : 0 < m) (k : Nat) (h : k < 16) :
    Canonical (absorbBlocks T m S y)[k] := by
  induction m generalizing S y with
  | zero => omega
  | succ m ih =>
    rw [absorbBlocks]
    rcases Nat.eq_zero_or_pos m with rfl | hm'
    · exact absorb_canonical ..
    · exact ih _ _ hm'

theorem absorbAll_canonical (x : List Word) (k : Nat) (h : k < 16) : Canonical (absorbAll T S x)[k] :=
  absorbBlocks_canonical T S _ _ (by rw [pad_blocks]; omega) k h

end Sys2Proof.Laws
end

