-- ==== Sys2Proof/Laws/Step.lean ====
section
/-! SUPPORT. Everything one step can do. -/

namespace Sys2Proof.Laws

open Machine

/-- The five cases of a step: held in reset, idle, halted, frame rejected, command executed. -/
theorem step_cases (s : State) :
    (s.resetLine = true ∧ step s = .next s.assertReset) ∨
    (s.resetLine = false ∧ s.commands = [] ∧ step s = .next s) ∨
    ∃ f rest, s.resetLine = false ∧ s.commands = f :: rest ∧
      ((s.fault = true ∧ step s = .next { s with commands := rest }) ∨
       (s.fault = false ∧ ∃ e, decode f = .error e ∧
          step s = .next (State.raise { s with commands := rest } (causeOf e))) ∨
       (s.fault = false ∧ ∃ i, decode f = .ok i ∧ step s = exec i { s with commands := rest })) := by
  cases hr : s.resetLine with
  | true => exact .inl ⟨rfl, by simp [step, hr]⟩
  | false =>
    refine .inr ?_
    rcases fetch_cases (s := s) with ⟨hc, hf⟩ | ⟨f, rest, hc, hf⟩
    · exact .inl ⟨rfl, hc, by simp [step, hr, hf]⟩
    · refine .inr ⟨f, rest, rfl, hc, ?_⟩
      cases hfl : s.fault with
      | true => exact .inl ⟨rfl, by simp [step, hr, hf, hfl]⟩
      | false =>
        cases hd : decode f with
        | error e => exact .inr (.inl ⟨rfl, e, rfl, by simp [step, hr, hf, hfl, hd]⟩)
        | ok i => exact .inr (.inr ⟨rfl, i, rfl, by simp [step, hr, hf, hfl, hd]⟩)

/-- A run of one more step, where that step goes on. -/
theorem run_succ {s s' : State} (n : Nat) (h : step s = .next s') :
    Sys2Proof.core.run (n + 1) s = Sys2Proof.core.run n s' := by
  have h' : Sys2Proof.core.step s = .next s' := h
  simp only [Host.Core.run, h']

end Sys2Proof.Laws
end

