-- ==== Sys2Proof/Tests/Slice0.lean ====
section
/-! SUPPORT. Tests, with expected values from 95_test_vectors.md and 96_test_vectors_sponge.md (numbers the spec derives from its
rules) or copied from the rule named; and a witness for the hypotheses of each obligation that has any. The values of the three
tables are open (00_scope.md R8), so the vectors of permutations, sponges and hashes are tested on the toy tables of
93_implementation_defined.md U2, which are a parameter here and no part of the model. -/

namespace Sys2Proof.Tests

open Machine Config
open Host (Outcome)

/-! The theorems are checked one after another: each is small, but many at once need a thread each. -/

set_option Elab.async false

/-! ## Helpers -/

/-- The newest response frame of a next state. -/
def answer : Outcome State Fault Refusal → Option (List Word)
  | .next s => s.responses.getLast?
  | .fault _ => none
  | .refused _ => none

/-- The status port of a next state. -/
def statusOf : Outcome State Fault Refusal → Option Word
  | .next s => some s.status
  | .fault _ => none
  | .refused _ => none

/-- The unit just out of reset after one frame. -/
def fresh (hdr : Word) (pay : List Word) : Outcome State Fault Refusal := step (State.reset.send { hdr := hdr, pay := pay })

/-- A running unit whose state is `init(1)`, with `p` words of a block pushed. -/
def ready (p : Fin 10) : State := State.reset.load (initSponge .fixedLength) p

/-- The unit halted by an illegal header. -/
def halted : State := State.reset.raise .illegal

/-- Ten words, told apart. -/
def tenWords : Block := #v[1, 2, 3, 4, 5, 6, 7, 8, 9, 10]

/-- The toy tables `K_TOY` (93_implementation_defined.md U2). -/
def toy : Tables where
  lut := { toFun := fun x => x ^^^ 0xFF, invFun := fun x => x ^^^ 0xFF,
           left_inv := fun x => by simp, right_inv := fun x => by simp }
  mdsCol := fun j => if j = 0 then 2 else if j = 1 then 1 else if j = 15 then -1 else 0
  rc := fun j => ⟨(j.val + 1) * 2 ^ 64 % P, Nat.mod_lt _ (by norm_num)⟩

/-! ## Well-formedness: a sequence too long for the field `LEN` is refused -/

theorem wf_of_length (x : List Word) :
    (2 ^ 32 ≤ x.length → (Instr.absorball x).wf = false) ∧ (2 ^ 32 ≤ x.length → (Instr.hashvarlen x).wf = false) ∧
    (x.length < 2 ^ 32 → (Instr.absorball x).wf = true) ∧ (x.length < 2 ^ 32 → (Instr.hashvarlen x).wf = true) := by
  simp [Instr.wf]

theorem test_wf_refuses_long_absorball : (Instr.absorball (List.replicate (2 ^ 32) 0)).wf = false :=
  (wf_of_length _).1 (by rw [List.length_replicate])

theorem test_wf_refuses_long_hashvarlen : (Instr.hashvarlen (List.replicate (2 ^ 32) 0)).wf = false :=
  (wf_of_length _).2.1 (by rw [List.length_replicate])

theorem test_wf_accepts_longest_absorball : (Instr.absorball (List.replicate (2 ^ 32 - 1) 0)).wf = true :=
  (wf_of_length _).2.2.1 (by rw [List.length_replicate]; decide)

theorem test_wf_accepts_longest_hashvarlen : (Instr.hashvarlen (List.replicate (2 ^ 32 - 1) 0)).wf = true :=
  (wf_of_length _).2.2.2 (by rw [List.length_replicate]; decide)

/-! ## Decoding: header words of 95_test_vectors.md 2.1, one or more for each constructor -/

theorem test_decode_fromint : decode ⟨0x0000000000000001, [7]⟩ = .ok (.fromint 7) := by rfl
theorem test_decode_canon : decode ⟨0x0000000000000002, [7]⟩ = .ok (.canon 7) := by rfl
theorem test_decode_montred : decode ⟨0x0000000000000003, [7, 9]⟩ = .ok (.montred 7 9) := by rfl
theorem test_decode_add : decode ⟨0x0000000000000004, [7, 9]⟩ = .ok (.add 7 9) := by rfl
theorem test_decode_sub : decode ⟨0x0000000000000005, [7, 9]⟩ = .ok (.sub 7 9) := by rfl
theorem test_decode_mul : decode ⟨0x0000000000000006, [7, 9]⟩ = .ok (.mul 7 9) := by rfl
theorem test_decode_neg : decode ⟨0x0000000000000007, [7]⟩ = .ok (.neg 7) := by rfl
theorem test_decode_inv : decode ⟨0x0000000000000008, [7]⟩ = .ok (.inv 7) := by rfl
theorem test_decode_div : decode ⟨0x0000000000000009, [7, 9]⟩ = .ok (.div 7 9) := by rfl
theorem test_decode_init_v : decode ⟨0x0000000000000010, []⟩ = .ok (.init .variableLength) := by rfl
theorem test_decode_init_f : decode ⟨0x0000000000000110, []⟩ = .ok (.init .fixedLength) := by rfl
theorem test_decode_permute : decode ⟨0x0000000000000011, []⟩ = .ok (.permute) := by rfl
theorem test_decode_trace : decode ⟨0x0000000000000012, []⟩ = .ok (.trace) := by rfl
theorem test_decode_rdstate : decode ⟨0x0000000000000013, []⟩ = .ok (.rdstate) := by rfl
theorem test_decode_rddigest : decode ⟨0x0000000000000014, []⟩ = .ok (.rddigest) := by rfl
theorem test_decode_absorb : decode ⟨0x0000000000000020, [1, 2, 3, 4, 5, 6, 7, 8, 9, 10]⟩ = .ok (.absorb tenWords) := by rfl
theorem test_decode_squeeze : decode ⟨0x0000000000000021, []⟩ = .ok (.squeeze) := by rfl
theorem test_decode_push : decode ⟨0x0000000000000022, [7]⟩ = .ok (.push 7) := by rfl
theorem test_decode_finish : decode ⟨0x0000000000000023, []⟩ = .ok (.finish) := by rfl
theorem test_decode_absorball_0 : decode ⟨0x0000000000000024, []⟩ = .ok (.absorball []) := by rfl
theorem test_decode_absorball_2 : decode ⟨0x0000000200000024, [7, 9]⟩ = .ok (.absorball [7, 9]) := by rfl
theorem test_decode_hash10 : decode ⟨0x0000000000000028, [1, 2, 3, 4, 5, 6, 7, 8, 9, 10]⟩ = .ok (.hash10 tenWords) := by rfl
theorem test_decode_hashpair : decode ⟨0x0000000000000029, [1, 2, 3, 4, 5, 6, 7, 8, 9, 10]⟩ = .ok (.hashpair #v[1, 2, 3, 4, 5] #v[6, 7, 8, 9, 10]) := by rfl
theorem test_decode_hashvarlen_0 : decode ⟨0x000000000000002A, []⟩ = .ok (.hashvarlen []) := by rfl
theorem test_decode_hashvarlen_2 : decode ⟨0x000000020000002A, [7, 9]⟩ = .ok (.hashvarlen [7, 9]) := by rfl

/-! Words built from the fields of 30_encoding.md R46 (`LEN : RSV : ARG : OPC`, bit for bit). -/

theorem test_header_fields_of_init : encode (.init .fixedLength) =
    ⟨0b00000000000000000000000000000000#32 ++ 0b0000000000000000#16 ++ 0b00000001#8 ++ 0b00010000#8, []⟩ := by rfl

theorem test_header_fields_of_absorball : (encode (.absorball (List.replicate 12 3))).hdr =
    0b00000000000000000000000000001100#32 ++ 0b0000000000000000#16 ++ 0b00000000#8 ++ 0b00100100#8 := by rfl

/-! The rejected frames of 95_test_vectors.md 2.1, in its order, with the status it lists. -/

theorem test_frame_zero_header : statusOf (fresh 0x0000000000000000 []) = some 0x202 := by decide +kernel
theorem test_frame_all_ones_opcode : statusOf (fresh 0x00000000000000FF []) = some 0x202 := by decide +kernel
theorem test_frame_opcode_0A : statusOf (fresh 0x000000000000000A []) = some 0x202 := by decide +kernel
theorem test_frame_opcode_15 : statusOf (fresh 0x0000000000000015 []) = some 0x202 := by decide +kernel
theorem test_frame_init_arg_2 : statusOf (fresh 0x0000000000000210 []) = some 0x202 := by decide +kernel
theorem test_frame_add_arg_1 : statusOf (fresh 0x0000000000000104 [0, 0]) = some 0x202 := by decide +kernel
theorem test_frame_add_rsv : statusOf (fresh 0x0000000000010004 [0, 0]) = some 0x202 := by decide +kernel
theorem test_frame_add_len : statusOf (fresh 0x0000000200000004 [0, 0]) = some 0x202 := by decide +kernel
theorem test_frame_add_short : statusOf (fresh 0x0000000000000004 [5]) = some 0x302 := by decide +kernel
theorem test_frame_add_long : statusOf (fresh 0x0000000000000004 [1, 2, 3]) = some 0x302 := by decide +kernel
theorem test_frame_hashvarlen_short : statusOf (fresh 0x000000030000002A [1, 2]) = some 0x302 := by decide +kernel
theorem test_frame_init_with_payload : statusOf (fresh 0x0000000000000010 [0]) = some 0x302 := by decide +kernel
theorem test_frame_permute_before_init : statusOf (fresh 0x0000000000000011 []) = some 0x402 := by decide +kernel
theorem test_frame_absorb_short_before_init : statusOf (fresh 0x0000000000000020 [1, 2, 3, 4, 5, 6, 7, 8, 9]) = some 0x302 := by decide +kernel
theorem test_frame_absorb_before_init : statusOf (fresh 0x0000000000000020 [1, 2, 3, 4, 5, 6, 7, 8, 9, 10]) = some 0x402 := by decide +kernel
theorem test_frame_div_short_of_zero : statusOf (fresh 0x0000000000000009 [0]) = some 0x302 := by decide +kernel

/-! ## Field-arithmetic unit: vectors of 95_test_vectors.md 2.2 -/

theorem test_fromint_source_vector : answer (exec (.fromint 0xA72B64FB86CB0705) State.reset) = some [0x86CB0703D2099400] := by decide +kernel
theorem test_fromint_largest : answer (exec (.fromint 0xFFFFFFFFFFFFFFFF) State.reset) = some [0xFFFFFFFD00000002] := by decide +kernel
theorem test_canon_source_vector : answer (exec (.canon 0x86CB0703D2099400) State.reset) = some [0xA72B64FB86CB0705] := by decide +kernel
theorem test_canon_noncanonical : answer (exec (.canon 0xFFFFFFFF00000002) State.reset) = some [0xFFFFFFFE00000001] := by decide +kernel
theorem test_montred_high_word : answer (exec (.montred 0 0xFFFFFFFE00000001) State.reset) = some [0xFFFFFFFE00000001] := by decide +kernel
theorem test_montred_outside_source_domain : answer (exec (.montred 0xFFFFFFFFFFFFFFFF 0xFFFFFFFFFFFFFFFF) State.reset) = some [0x00000001FFFFFFFF] := by decide +kernel
theorem test_add_raw_wrap : answer (exec (.add 0xFFFFFFFF00000000 0x0000000000000001) State.reset) = some [0] := by decide +kernel
theorem test_add_two_corrections : answer (exec (.add 0xFFFFFFFFFFFFFFFF 0xFFFFFFFFFFFFFFFF) State.reset) = some [0x00000001FFFFFFFC] := by decide +kernel
theorem test_sub_borrows : answer (exec (.sub 0x00000001FFFFFFFE 0x00000002FFFFFFFD) State.reset) = some [0xFFFFFFFE00000002] := by decide +kernel
theorem test_sub_noncanonical_subtrahend : answer (exec (.sub 0 0xFFFFFFFFFFFFFFFF) State.reset) = some [0xFFFFFFFE00000003] := by decide +kernel
theorem test_mul_square : answer (exec (.mul 0x86CB0703D2099400 0x86CB0703D2099400) State.reset) = some [0xB2C3FD2FF6C786D8] := by decide +kernel
theorem test_mul_largest : answer (exec (.mul 0xFFFFFFFFFFFFFFFF 0xFFFFFFFFFFFFFFFF) State.reset) = some [0xFFFFFFFEFFFFFFFE] := by decide +kernel
theorem test_neg_one : answer (exec (.neg 0x00000000FFFFFFFF) State.reset) = some [0xFFFFFFFE00000002] := by decide +kernel
theorem test_neg_noncanonical : answer (exec (.neg 0xFFFFFFFFFFFFFFFF) State.reset) = some [0xFFFFFFFE00000003] := by decide +kernel
theorem test_inv_three : answer (exec (.inv 0x00000002FFFFFFFD) State.reset) = some [0x0000000055555555] := by decide +kernel
theorem test_div_noncanonical_divisor : answer (exec (.div 0x00000005FFFFFFFA 0xFFFFFFFF00000002) State.reset) = some [0xFFFFFFF900000001] := by decide +kernel

/-- Program P4 of 95_test_vectors.md, frame 2: INV of the non-canonical zero, with `VALID = 1`. -/
theorem test_inv_of_P_faults : statusOf (exec (.inv 0xFFFFFFFF00000001) (ready 0)) = some 0x103 := by decide +kernel

theorem test_div_by_zero_faults : statusOf (fresh 0x9 [0x00000005FFFFFFFA, 0]) = some 0x102 := by decide +kernel

/-! ## Permutation engine -/

/-- 96_test_vectors_sponge.md, `init(1)` of the layer table. -/
theorem test_init_f : exec (.init .fixedLength) State.reset = .next
    { State.reset with
      regs := some #v[0, 0, 0, 0, 0, 0, 0, 0, 0, 0, 0x00000000FFFFFFFF, 0x00000000FFFFFFFF, 0x00000000FFFFFFFF,
        0x00000000FFFFFFFF, 0x00000000FFFFFFFF, 0x00000000FFFFFFFF],
      responses := [[]] } := by rfl

/-- INIT over an open block discards it (10_state.md R19). -/
theorem test_init_discards_block : statusOf (exec (.init .variableLength) (ready 9)) = some 0x1 := by decide +kernel

theorem test_sbox_lookup : sboxLookup toy 0x0123456789ABCDEF = 0xFEDCBA9876543210 := by decide +kernel

theorem test_pow7 : pow7 0xFFFFFFFFFFFFFFFF = 0xFFFFFFE400000037 := by decide +kernel

/-- The row `s[1] = ONE` of the `mds_layer` table: the column index runs `(r - c) mod 16`. -/
theorem test_mds_layer : mdsLayer toy #v[0, ONE, 0, 0, 0, 0, 0, 0, 0, 0, 0, 0, 0, 0, 0, 0] =
    #v[0xFFFFFFFE00000002, 0x00000001FFFFFFFE, 0x00000000FFFFFFFF, 0, 0, 0, 0, 0, 0, 0, 0, 0, 0, 0, 0, 0] := by decide +kernel

/-- Snapshot 1 of the TRACE table: round 0 of `init(1)`. -/
theorem test_round_0 : roundFn toy 0 (initSponge .fixedLength) =
    #v[0x00000002FFFFFFFC, 0x00000003FFFFFFFA, 0x00000004FFFFFFF9, 0x00000006FFFFFFF6,
       0x00000005FFFFFFF9, 0x00000005FFFFFFFA, 0x00000006FFFFFFF9, 0x00000007FFFFFFF8,
       0x00000008FFFFFFF7, 0x00000008FFFFFFF7, 0x0000000BFFFFFFF4, 0x0000000DFFFFFFF2,
       0x0000000EFFFFFFF1, 0x0000000FFFFFFFF0, 0x00000010FFFFFFEF, 0x00000011FFFFFFEF] := by decide +kernel

/-- `INIT V`, `PERMUTE`, `RDSTATE` of 96_test_vectors_sponge.md 2.3. -/
theorem test_permute_init_v : permute toy (initSponge .variableLength) =
    #v[0x1927E45014C9F9B8, 0x782110C9486DFCA6, 0xFBA4AD3BB2A770A6, 0xC3985FDF522FA0A3,
       0x706904871B11A7B8, 0xE9BC269B146C756D, 0xE337D95634FE5E71, 0x4CC1A73F084F7EEB,
       0x9DABAF699BFD891F, 0xBEAF0DFFDA466428, 0x6FBA3AF093E19796, 0x908B491B958E758C,
       0x3F2631A10344740F, 0x8AF9CF25ED0A4717, 0x1DABAA3B4AE7DE13, 0xB5B1F8E3463BE4E4] := by decide +kernel

theorem test_permute_on_open_block_faults : statusOf (exec .permute (ready 1)) = some 0x513 := by decide +kernel

/-- Words 3 of snapshot 2 and 15 of snapshot 7 of the TRACE table: the response is snapshot-major. -/
theorem test_trace_words : (traceWords toy (initSponge .fixedLength))[35]? = some 0xFFFEE675000872B5 ∧
    (traceWords toy (initSponge .fixedLength))[127]? = some 0x70235A6FE5F5407E := by decide +kernel

theorem test_trace_before_init_faults : statusOf (fresh 0x12 []) = some 0x402 := by decide +kernel

/-- Program P5 of 95_test_vectors.md, frame 3: RDSTATE is legal on an open block. -/
theorem test_rdstate_on_open_block : answer (exec .rdstate (State.reset.load (writeAt (initSponge .variableLength) 0 ONE) 1)) =
    some [0x00000000FFFFFFFF, 0, 0, 0, 0, 0, 0, 0, 0, 0, 0, 0, 0, 0, 0, 0] := by decide +kernel

/-- 41_permutation_engine.md R114 on sixteen words told apart. -/
theorem test_rddigest : answer (exec .rddigest (State.reset.load
    #v[1, 2, 3, 4, 5, 6, 7, 8, 9, 10, 11, 12, 13, 14, 15, 16] 0)) = some [1, 2, 3, 4, 5] := by decide +kernel

theorem test_rddigest_on_open_block_faults : statusOf (exec .rddigest (ready 3)) = some 0x533 := by decide +kernel

/-! ## Sponge controller -/

/-- `INIT V`, `ABSORB @1, …, @10`: words 0, 9, 10 and 15 of 96_test_vectors_sponge.md 2.4. -/
theorem test_absorb : ([0, 9, 10, 15].map fun k =>
      (absorb toy (initSponge .variableLength) (tenWords.map fromInt)).toList[k]?) =
    [some 0xC17818B4FB17DDD7, some 0x744B08F7412FDFD5, some 0x42F40F6F40E667C3, some 0xD97B08F01B8F2E0B] := by decide +kernel

theorem test_absorb_on_open_block_faults : statusOf (exec (.absorb tenWords) (ready 9)) = some 0x593 := by decide +kernel

/-- The second SQUEEZE of 96_test_vectors_sponge.md 2.4 returns the rate part after one more permutation. -/
theorem test_squeeze_permutes : (rateWords (permute toy (absorb toy (initSponge .variableLength) (tenWords.map fromInt)))).take 2 =
    [0xC00068F048BEC3D9, 0x6BC9B78A8DC6470B] := by decide +kernel

/-- `INIT F`, `SQUEEZE` returns ten zero words (96_test_vectors_sponge.md 2.4). -/
theorem test_squeeze_returns_rate : answer (exec .squeeze (ready 0)) = some [0, 0, 0, 0, 0, 0, 0, 0, 0, 0] := by rfl

/-- Program P5, frame 2: PUSH @1 in `INIT V`. -/
theorem test_push : exec (.push 0x00000000FFFFFFFF) (State.reset.load (initSponge .variableLength) 0) = .next
    { State.reset with regs := some #v[0x00000000FFFFFFFF, 0, 0, 0, 0, 0, 0, 0, 0, 0, 0, 0, 0, 0, 0, 0], pos := 1,
                       responses := [[]] } := by rfl

/-- Program P6 of 95_test_vectors.md: the tenth PUSH returns `POS` to 0. -/
theorem test_tenth_push_wraps : posAfterPush 9 = 0 ∧ posAfterPush 8 = 9 := by decide

/-- Programs P2: two pushed words, the marker, seven zeros; digest word 0 and the last word of the end state. -/
theorem test_finish_closes_block : ([0, 15].map fun k =>
      (permute toy (closeBlock (writeAt (writeAt (initSponge .variableLength) 0 ONE) 1 0) 2)).toList[k]?) =
    [some 0xCDAC2EB2916470FF, some 0x5EB4A18957A7895E] := by decide +kernel

/-- FINISH zeroes the words after the marker and keeps the capacity part (42_sponge_controller.md R137). -/
theorem test_finish_zeroes : closeBlock #v[1, 2, 3, 4, 5, 6, 7, 8, 9, 10, 11, 12, 13, 14, 15, 16] 8 =
    #v[1, 2, 3, 4, 5, 6, 7, 8, ONE, 0, 11, 12, 13, 14, 15, 16] := by decide +kernel

/-- The rows n = 0, 9, 10, 25 of the padding table. -/
theorem test_padding_rows : ([0, 9, 10, 25].map fun n => (padZeros n, (pad (List.replicate n 7)).length)) =
    [(9, 10), (0, 10), (9, 20), (4, 30)] := by decide +kernel

/-- `HASHVARLEN @1, …, @10` (two blocks) and `@1, …, @9` (one block, no zero padding): the first digest words. -/
theorem test_absorball : (absorbAll toy (initSponge .variableLength) ((tenWords.map fromInt).toList))[0] = 0x1A0C8162D2276408 ∧
    (absorbAll toy (initSponge .variableLength) ((tenWords.map fromInt).toList.take 9))[0] = 0x4B71BF2871425469 := by
  decide +kernel

theorem test_absorball_before_init_faults : statusOf (fresh 0x24 []) = some 0x402 := by decide +kernel

/-- `HASH10 @1, …, @10`: the digest. -/
theorem test_hash10 : digestWords (absorb toy (initSponge .fixedLength) (tenWords.map fromInt)) =
    [0x23982FF20740E70F, 0x9201E39BFFEA780B, 0xA20789B81EFE1276, 0x6DBEE001D92A8305, 0x73053BC9E5008FB4] := by decide +kernel

/-- `HASHPAIR @1..@5, @6..@10` is the row above: the digests in order. -/
theorem test_hashpair_block : pairBlock #v[1, 2, 3, 4, 5] #v[6, 7, 8, 9, 10] = tenWords := by decide

/-- A hash command on an open block leaves `POS = 0`, `VALID = 1` and no fault (42_sponge_controller.md R143, R145, R147). -/
theorem test_hash_commands_status :
    statusOf (exec (.hash10 tenWords) (ready 9)) = some 0x1 ∧
    statusOf (exec (.hashpair #v[1, 2, 3, 4, 5] #v[6, 7, 8, 9, 10]) (ready 9)) = some 0x1 ∧
    statusOf (exec (.hashvarlen []) State.reset) = some 0x1 := ⟨rfl, rfl, rfl⟩

/-- `HASHVARLEN` of no operand: the digest. -/
theorem test_hashvarlen_empty : digestWords (absorbAll toy (initSponge .variableLength) []) =
    [0x76EA1075B4293B27, 0x1EA8642CF8C5D8CC, 0xACBFE87F90C41B78, 0x4BDC07C065F090E0, 0xFA46479E7BE3A744] := by decide +kernel

/-! ## Steps, halt, reset, host -/

/-- The last row of the decode table of 95_test_vectors.md 2.1. -/
theorem test_step_add : fresh 0x4 [0x00000000FFFFFFFF, 0x00000000FFFFFFFF] =
    .next { State.reset with responses := [[0x00000001FFFFFFFE]] } := by rfl

/-- Program P4, frames 3 and 4: a halted unit discards. -/
theorem test_halted_discards : step (halted.send ⟨0x10, []⟩) = .next halted := by rfl

theorem test_reset_leaves_halt : halted.assertReset.releaseReset = State.reset := by rfl

theorem test_status_after_reset : State.reset.status = 0 := by decide

/-- Words delivered one by one make the frame the transport ends (30_encoding.md R45). -/
theorem test_delivery : (((State.reset.deliver 0x7).deliver 5).endFrame) = State.reset.send ⟨0x7, [5]⟩ := by rfl

theorem test_receive : (State.reset.respond [1, 2]).receive = some ([1, 2], State.reset) := by rfl

/-- A table word of spec/opcode_table.json, whose payload words are zeros. -/
theorem test_table_word : decodeTableWord 64 0x4 = some (.add 0 0) ∧ decodeTableWord 64 0x110 = some (.init .fixedLength) ∧
    decodeTableWord 64 0xA = none := by decide +kernel

theorem test_fetch_word : step (State.reset.withFetchWord 64 0x4) = .next { State.reset with responses := [[0]] } := by rfl

/-! ## Witnesses: the hypotheses of each obligation that has any, met by a concrete state and operands, each clause at a boundary.
Each theorem is named after the obligation. -/

theorem witness_CanonRespondsWithCanonicalValue : (0xFFFFFFFF00000000 : Word).toNat < P := by decide

theorem witness_AddRespondsWithModularSum :
    ((0xFFFFFFFF00000000 : Word).toNat < P ∧ (1 : Word).toNat < P ∧ P ≤ (0xFFFFFFFF00000000 : Word).toNat + (1 : Word).toNat) ∧
    ((0xFFFFFFFF00000000 : Word).toNat < P ∧ (0 : Word).toNat < P ∧ ¬ P ≤ (0xFFFFFFFF00000000 : Word).toNat + (0 : Word).toNat) := by
  decide

theorem witness_SubRespondsWithModularDifference :
    ((0 : Word).toNat < P ∧ (1 : Word).toNat < P ∧ (0 : Word).toNat < (1 : Word).toNat) ∧
    ((1 : Word).toNat < P ∧ (1 : Word).toNat < P ∧ ¬ (1 : Word).toNat < (1 : Word).toNat) := by decide

theorem witness_InvFaultsOnZeroElseFermatPower : (0 : Word).toNat % P = 0 ∧ (0xFFFFFFFF00000001 : Word).toNat % P = 0 ∧
    (1 : Word).toNat % P ≠ 0 ∧ (0xFFFFFFFF00000000 : Word).toNat % P ≠ 0 ∧ (0xFFFFFFFF00000002 : Word).toNat % P ≠ 0 := by decide

theorem witness_InvRespondsWithUniqueInverse : (0xFFFFFFFFFFFFFFFF : Word).toNat % P ≠ 0 := by decide

/-- The inverse's own hypotheses on a rival `q'`: `ONE` is its own inverse. -/
theorem witness_InvRespondsWithUniqueInverse_rival : ONE.toNat % P ≠ 0 ∧ ONE.toNat < P ∧ fmul ONE ONE = ONE := by decide +kernel

theorem witness_DivFaultsOnZeroElseMultipliesByInverse : (0 : Word).toNat % P = 0 ∧ (0xFFFFFFFF00000001 : Word).toNat % P = 0 ∧
    (0xFFFFFFFF00000002 : Word).toNat % P ≠ 0 := by decide

theorem witness_DivIsExactAndIsInvThenMul : (0xFFFFFFFF00000002 : Word).toNat % P ≠ 0 := by decide

theorem witness_FauCommandsFollowTheCommonTemplate : (Instr.fromint 0).isFau = true ∧ (Instr.inv 0).isFau = true ∧
    (Instr.div 1 0xFFFFFFFF00000001).isFau = true ∧
    (0 : Word).toNat % P = (0xFFFFFFFF00000001 : Word).toNat % P ∧ (5 : Word).toNat % P = (0xFFFFFFFF00000006 : Word).toNat % P := by
  decide

theorem witness_FieldFunctionsObeyTheFieldLaws : (1 : Word).toNat % P ≠ 0 := by decide

/-- The table that changes no byte fixes 0x00 and 0xFF. -/
theorem witness_SboxLookupKeepsCanonicityWhereTheTableFixesZeroAndFf :
    ({ toy with lut := Equiv.refl Byte } : Tables).lut 0x00 = 0x00 ∧
    ({ toy with lut := Equiv.refl Byte } : Tables).lut 0xFF = 0xFF := ⟨rfl, rfl⟩

theorem witness_RoundWordFormula : ∀ (c : Nat) (h : c < 16),
    (sboxLayer toy (initSponge .fixedLength))[c] =
      if c < 4 then sboxLookup toy (initSponge .fixedLength)[c] else fpow (initSponge .fixedLength)[c] 7 := by decide +kernel

theorem witness_PermuteRunsSevenRoundsOrFaults : State.reset.regs = none ∧ (ready 1).pos ≠ 0 ∧
    (ready 0).regs = some (initSponge .fixedLength) ∧ (ready 0).pos = 0 := by decide +kernel

theorem witness_TraceReturnsEightSnapshotsOrFaults : State.reset.regs = none ∧ (ready 1).pos ≠ 0 ∧
    (ready 0).regs = some (initSponge .fixedLength) ∧ (ready 0).pos = 0 := by decide +kernel

theorem witness_RdstateReturnsAllWordsOrFaults : State.reset.regs = none ∧ (ready 9).regs = some (initSponge .fixedLength) := by
  decide +kernel

theorem witness_RddigestReturnsFirstFiveWordsOrFaults : State.reset.regs = none ∧ (ready 1).pos ≠ 0 ∧
    (ready 0).regs = some (initSponge .fixedLength) ∧ (ready 0).pos = 0 := by decide +kernel

/-- Two different states, one with `P` for 0 in word 4. -/
theorem witness_PermuteReadsUpperWordsModuloP :
    (∀ (k : Nat) (h : k < 16),
      if k < 4 then (initSponge .variableLength)[k] = ((initSponge .variableLength).set 4 0xFFFFFFFF00000001)[k]
      else (initSponge .variableLength)[k].toNat % P =
        ((initSponge .variableLength).set 4 0xFFFFFFFF00000001)[k].toNat % P) ∧
    initSponge .variableLength ≠ (initSponge .variableLength).set 4 0xFFFFFFFF00000001 := by decide +kernel

theorem witness_AbsorbOverwritesTheRateThenPermutesOrFaults : State.reset.regs = none ∧ (ready 1).pos ≠ 0 ∧
    (ready 0).regs = some (initSponge .fixedLength) ∧ (ready 0).pos = 0 := by decide +kernel

theorem witness_SqueezeReturnsTheRateThenPermutesOrFaults : State.reset.regs = none ∧ (ready 9).pos ≠ 0 ∧
    (ready 0).regs = some (initSponge .fixedLength) ∧ (ready 0).pos = 0 := by decide +kernel

theorem witness_PushWritesAtPosAndPermutesAFullBlockOrFaults : State.reset.regs = none ∧
    (ready 9).regs = some (initSponge .fixedLength) ∧ (ready 9).pos = 9 ∧
    (ready 8).regs = some (initSponge .fixedLength) ∧ (ready 8).pos ≠ 9 ∧
    (ready 0).regs = some (initSponge .fixedLength) ∧ (ready 0).pos ≠ 9 := by decide +kernel

theorem witness_FinishPadsThenPermutesOrFaults : State.reset.regs = none ∧
    (ready 0).regs = some (initSponge .fixedLength) ∧ (ready 9).regs = some (initSponge .fixedLength) := by decide +kernel

theorem witness_AbsorballAbsorbsThePaddedBlocksOrFaults : ([] : List Word).length < 2 ^ 32 ∧
    (List.replicate (2 ^ 32 - 1) (0 : Word)).length < 2 ^ 32 ∧ State.reset.regs = none ∧ (ready 1).pos ≠ 0 ∧
    (ready 0).regs = some (initSponge .fixedLength) ∧ (ready 0).pos = 0 := by
  refine ⟨by decide, by rw [List.length_replicate]; decide, ?_⟩
  decide +kernel

theorem witness_PaddingHasTheStatedLengthAndIsInjective : pad [] = pad [] := rfl

theorem witness_HashvarlenHashesThePaddedSequence : ([] : List Word).length < 2 ^ 32 ∧
    (List.replicate (2 ^ 32 - 1) (0 : Word)).length < 2 ^ 32 :=
  ⟨by decide, by rw [List.length_replicate]; decide⟩

/-- The stream of no word, and of eleven words, before another frame. -/
theorem witness_StreamedFramesEqualAbsorball :
    let s0 : State := { ready 0 with commands := encode .finish :: [encode .rddigest] }
    let s11 : State := { ready 0 with
      commands := (List.replicate 11 3).map (fun w => encode (.push w)) ++ encode .finish :: [encode .rddigest] }
    (s0.regs = some (initSponge .fixedLength) ∧ s0.pos = 0 ∧ s0.fault = false ∧ s0.resetLine = false ∧
      s0.commands = ([] : List Word).map (fun w => encode (.push w)) ++ encode .finish :: [encode .rddigest]) ∧
    (s11.regs = some (initSponge .fixedLength) ∧ s11.pos = 0 ∧ s11.fault = false ∧ s11.resetLine = false ∧
      s11.commands = (List.replicate 11 3).map (fun w => encode (.push w)) ++ encode .finish :: [encode .rddigest]) := by
  decide +kernel

theorem witness_HashCommandsIgnoreThePreviousState : (Instr.hash10 tenWords).isHash = true ∧
    (Instr.hashpair #v[1, 2, 3, 4, 5] #v[6, 7, 8, 9, 10]).isHash = true ∧ (Instr.hashvarlen []).isHash = true := by decide

/-- Each answer of `firstFault`, and none on an open block and on a closed one. -/
theorem witness_CommandsTakeTheFirstFailingCheck : firstFault .permute State.reset = some 4 ∧
    firstFault .permute (ready 9) = some 5 ∧ firstFault (.div 0 0) State.reset = some 1 ∧
    firstFault .permute (ready 0) = none ∧ firstFault (.push 3) (ready 9) = none ∧
    firstFault (.inv 0xFFFFFFFF00000002) State.reset = none := by decide +kernel

/-- The legality of a header is decided by its fields; the examples of the next two theorems. -/
theorem witness_legal_headers : LegalHeader 0x4 ∧ LegalHeader 0x110 ∧ LegalHeader 0xFFFFFFFF00000024 ∧
    ¬ LegalHeader 0x0 ∧ ¬ LegalHeader 0x210 ∧ ¬ LegalHeader 0x10004 ∧ ¬ LegalHeader 0x100000011 := by
  unfold LegalHeader; decide +kernel

theorem witness_StepChecksInTheStatedOrder :
    (State.reset.resetLine = false ∧ halted.fault = true ∧ (halted.send ⟨0x10, []⟩).commands = ⟨0x10, []⟩ :: [] ∧
      (halted.send ⟨0x10, []⟩).resetLine = false) ∧
    ((State.reset.send ⟨0x210, []⟩).fault = false ∧ ¬ LegalHeader 0x210) ∧
    (LegalHeader 0x4 ∧ [5].length ≠ requiredPayload 0x4) ∧
    (LegalHeader 0x11 ∧ ([] : List Word).length = requiredPayload 0x11 ∧ firstFault .permute State.reset = some 4) ∧
    (LegalHeader 0x22 ∧ [(7 : Word)].length = requiredPayload 0x22 ∧ firstFault (.push 7) (ready 9) = none) := by
  unfold LegalHeader; decide +kernel

theorem witness_FaultEntryWritesOnlyFaultAndCause : State.reset.fault = false ∧
    step (State.reset.send ⟨0x0, []⟩) = .next halted ∧ halted.fault = true := ⟨rfl, rfl, rfl⟩

theorem witness_HaltedUnitOnlyDiscardsFrames : halted.fault = true ∧ halted.resetLine = false := by decide

theorem witness_OnlyResetLeavesTheHalt : (halted.respond [1]).fault = true ∧
    (halted.respond [1]).receive = some ([1], halted) ∧ halted.resetLine = false ∧ step halted = .next halted :=
  ⟨rfl, rfl, rfl, rfl⟩

theorem witness_ResetLeavesTheStatedValues : (ready 9).assertReset.resetLine = true := rfl

theorem witness_IdleUnitHoldsItsState : (ready 9).resetLine = false ∧ (ready 9).commands = [] := ⟨rfl, rfl⟩

theorem witness_DecodeOfEncodeIsTheCommand : (Instr.absorball []).wf = true ∧
    (Instr.hashvarlen (List.replicate (2 ^ 32 - 1) 0)).wf = true :=
  ⟨rfl, test_wf_accepts_longest_hashvarlen⟩

theorem witness_EncodeOfDecodeIsTheFrame : decode ⟨0x110, []⟩ = .ok (.init .fixedLength) := rfl

theorem witness_StepRunsTheDecodedCommand : (State.reset.send ⟨0x7, [5]⟩).resetLine = false ∧
    (State.reset.send ⟨0x7, [5]⟩).fault = false ∧ (State.reset.send ⟨0x7, [5]⟩).commands = ⟨0x7, [5]⟩ :: [] ∧
    decode ⟨0x7, [5]⟩ = .ok (.neg 5) := ⟨rfl, rfl, rfl, rfl⟩

theorem ready_inv (p : Fin 10) : (ready p).Inv :=
  ⟨by simp [ready, State.load, State.reset], by simp [ready, State.load, State.reset], fun h => by simp [ready] at h,
    fun S h k hk _ => by
      rw [ready, Laws.load_regs] at h
      cases h; exact Laws.initSponge_canonical .fixedLength k hk⟩

theorem witness_EveryStepKeepsTheInvariant : (ready 9).Inv ∧ step (ready 9) = .next (ready 9) := ⟨ready_inv 9, rfl⟩

theorem witness_ResponsesAreCanonicalExceptPushedWords : (ready 1).Inv ∧
    exec .rdstate (ready 1) = .next ((ready 1).respond (initSponge .fixedLength).toList) := ⟨ready_inv 1, rfl⟩

theorem witness_ValidIsSetOnlyByStartingCommands :
    (State.reset.resetLine = false ∧ step State.reset = .next State.reset ∧ State.reset.valid = false) ∧
    ((ready 1).resetLine = false ∧ step (ready 1) = .next (ready 1) ∧ (ready 1).valid = true) :=
  ⟨⟨rfl, rfl, rfl⟩, ⟨rfl, rfl, rfl⟩⟩

theorem witness_PosFollowsTheRatePositionRule : firstFault .finish (ready 9) = none ∧ firstFault (.push 3) (ready 9) = none ∧
    firstFault (.init .fixedLength) (ready 9) = none ∧ firstFault (.absorball []) (ready 0) = none ∧
    firstFault .rdstate (ready 9) = none ∧ (ready 1).regs ≠ none ∧ (ready 1).pos ≠ 0 ∧ (ready 9).pos ≠ 0 := by decide +kernel

/-- An FAU command and RDSTATE that go on; a starting command; two states that differ in the rate part alone; two that differ in
the words FINISH pads over alone. -/
theorem witness_CommandsTouchOnlyTheirSpongeWords :
    ((Instr.add 1 1).isFau = true ∧ exec .rdstate (ready 0) = .next ((ready 0).respond (initSponge .fixedLength).toList)) ∧
    (Instr.init .fixedLength).startsState = true ∧
    ((∀ (k : Nat) (h : k < 16), 10 ≤ k → (initSponge .fixedLength)[k] = ((initSponge .fixedLength).set 9 5)[k]) ∧
      (ready 0).pos = 0) ∧
    (∀ (k : Nat) (h : k < 16), k < (ready 8).pos.val ∨ 10 ≤ k →
      (initSponge .fixedLength)[k] = ((initSponge .fixedLength).set 8 5)[k]) :=
  ⟨⟨rfl, rfl⟩, rfl, ⟨by decide +kernel, rfl⟩, by decide +kernel⟩

theorem witness_ListedCommandsAreIdempotent : ((Instr.inv 1).isFau = true ∧ firstFault (.inv 1) State.reset = none) ∧
    ((Instr.hash10 tenWords).startsState = true ∧ firstFault (.hash10 tenWords) State.reset = none) ∧
    firstFault .rdstate (ready 9) = none ∧ firstFault .rddigest (ready 0) = none := by decide +kernel

end Sys2Proof.Tests
end

section
/-! PROOF. The rate position `POS` (10_state.md R19): where a command whose checks pass leaves it, and what an open block does to
the commands that need a closed one. -/

namespace Sys2Proof.Proofs.RatePosition

open Machine
open Host (Outcome)

variable {i : Instr} {s : State}

/-! ### The checks -/

/-- The checks of 60_exceptions.md R162, steps 4 to 6, one condition for each. -/
theorem firstFault_eq_none_iff : firstFault i s = none ↔
    (i.needsState = true → s.regs ≠ none) ∧ (i.needsClosedBlock = true → s.pos = 0) ∧ i.zeroOperand = false := by
  unfold firstFault
  split_ifs with hstate hblock hzero <;> simp_all

/-- The commands that `E_SEQ` is raised by do all their work behind the closed-block check. -/
theorem exec_eq_withClosedBlock (h : i.needsClosedBlock = true) (s : State) :
    ∃ k : Sponge → Outcome State Fault Refusal, exec i s = s.withClosedBlock k := by
  cases i with
  | permute | trace | rddigest | absorb | squeeze | absorball => exact ⟨_, rfl⟩
  | fromint | canon | montred | add | sub | mul | neg | inv | div => cases h
  | init | rdstate | push | finish | hash10 | hashpair | hashvarlen => cases h

theorem exec_openBlock (h : i.needsClosedBlock = true) (hregs : s.regs ≠ none) (hpos : s.pos ≠ 0) :
    exec i s = .next (s.raise .seq) := by
  obtain ⟨k, hk⟩ := exec_eq_withClosedBlock h s
  obtain ⟨S, hS⟩ := Option.ne_none_iff_exists'.mp hregs
  rw [hk, Laws.withClosedBlock_open k hS hpos]

/-! ### A command that has its effect -/

/-- The outcome is an effect on `s`: `S` loaded or kept, one response frame, `POS = p`, and nothing else changed. -/
def Effect (s : State) (p : Fin 10) (o : Outcome State Fault Refusal) : Prop :=
  ∃ (R : Option Sponge) (r : List Word), o = .next { s with regs := R, pos := p, responses := s.responses ++ [r] }

theorem effect_respond (s : State) (r : List Word) : Effect s s.pos (.next (s.respond r)) := ⟨s.regs, r, rfl⟩

theorem effect_load (s : State) (S : Sponge) (p : Fin 10) (r : List Word) :
    Effect s p (.next ((s.load S p).respond r)) := ⟨some S, r, rfl⟩

theorem effect_withState {p : Fin 10} {k : Sponge → Outcome State Fault Refusal} (hregs : s.regs ≠ none)
    (hk : ∀ S, Effect s p (k S)) : Effect s p (s.withState k) := by
  obtain ⟨S, hS⟩ := Option.ne_none_iff_exists'.mp hregs
  rw [Laws.withState_some k hS]
  exact hk S

theorem effect_withClosedBlock {p : Fin 10} {k : Sponge → Outcome State Fault Refusal} (hregs : s.regs ≠ none)
    (hpos : s.pos = 0) (hk : ∀ S, Effect s p (k S)) : Effect s p (s.withClosedBlock k) := by
  obtain ⟨S, hS⟩ := Option.ne_none_iff_exists'.mp hregs
  rw [Laws.withClosedBlock_closed k hS hpos]
  exact hk S

theorem effect_withNonzero {p : Fin 10} {a : Word} {k : Outcome State Fault Refusal} (ha : val a ≠ 0)
    (hk : Effect s p k) : Effect s p (s.withNonzero a k) := by
  rcases Laws.withNonzero_cases (s := s) a k with ⟨hzero, -⟩ | ⟨-, hgo⟩
  · exact absurd hzero ha
  · rwa [hgo]

/-- Where a command that has its effect leaves `POS` (10_state.md R19). -/
def posAfter (i : Instr) (p : Fin 10) : Fin 10 :=
  match i with
  | .init _ | .hash10 _ | .hashpair _ _ | .hashvarlen _ | .finish | .absorball _ => 0
  | .push _ => posAfterPush p
  | .fromint _ | .canon _ | .montred _ _ | .add _ _ | .sub _ _ | .mul _ _ | .neg _ | .inv _ | .div _ _ => p
  | .permute | .trace | .rdstate | .rddigest | .absorb _ | .squeeze => p

/-- The commands' common effect: once the checks pass, at most `S`, `POS` and the response stream change, `POS` as
`posAfter` says. -/
theorem exec_effect (h : firstFault i s = none) : Effect s (posAfter i s.pos) (exec i s) := by
  obtain ⟨hregs, hpos, hzero⟩ := firstFault_eq_none_iff.mp h
  cases i with
  | fromint | canon | montred | add | sub | mul | neg => exact effect_respond s _
  | inv a => exact effect_withNonzero (ne_of_beq_false hzero) (effect_respond s _)
  | div a b => exact effect_withNonzero (ne_of_beq_false hzero) (effect_respond s _)
  | init | hash10 | hashpair | hashvarlen => exact effect_load s _ 0 _
  | rdstate => exact effect_withState (hregs rfl) fun S => effect_respond s _
  | rddigest => exact effect_withClosedBlock (hregs rfl) (hpos rfl) fun S => effect_respond s _
  | permute | trace | absorb | squeeze =>
    exact effect_withClosedBlock (hregs rfl) (hpos rfl) fun S => effect_load s _ s.pos _
  | absorball x => exact effect_withClosedBlock (hregs rfl) (hpos rfl) fun S => effect_load s _ 0 _
  | push w => exact effect_withState (hregs rfl) fun S => effect_load s _ (posAfterPush s.pos) _
  | finish => exact effect_withState (hregs rfl) fun S => effect_load s _ 0 _

/-! ### The rule -/

theorem posAfterPush_val (p : Fin 10) : (posAfterPush p).val = (p.val + 1) % 10 := Fin.val_add p 1

theorem posAfter_of_startsState (h : i.startsState = true) (p : Fin 10) : posAfter i p = 0 := by
  cases i with
  | init | hash10 | hashpair | hashvarlen => rfl
  | fromint | canon | montred | add | sub | mul | neg | inv | div => cases h
  | permute | trace | rdstate | rddigest | absorb | squeeze | push | finish | absorball => cases h

theorem posAfter_eq_self (hstart : i.startsState = false) (hfinish : i ≠ .finish) (hall : ∀ x, i ≠ .absorball x)
    (hpush : ∀ w, i ≠ .push w) (p : Fin 10) : posAfter i p = p := by
  cases i with
  | init | hash10 | hashpair | hashvarlen => cases hstart
  | finish => exact absurd rfl hfinish
  | absorball x => exact absurd rfl (hall x)
  | push w => exact absurd rfl (hpush w)
  | fromint | canon | montred | add | sub | mul | neg | inv | div => rfl
  | permute | trace | rdstate | rddigest | absorb | squeeze => rfl

/-- Settles O56: the commands' common effect with `posAfter` read off by cases, and the closed-block check. -/
theorem posFollowsTheRatePositionRule : Obligations.PosFollowsTheRatePositionRule := by
  intro i s
  refine ⟨fun h => ?_, fun hregs hpos hi => ?_⟩
  · obtain ⟨R, r, hexec⟩ := exec_effect h
    refine ⟨_, hexec, ?_, ?_, ?_⟩
    · rintro (hstart | rfl | ⟨x, rfl⟩)
      · exact congrArg Fin.val (posAfter_of_startsState hstart s.pos)
      · rfl
      · rfl
    · rintro ⟨w, rfl⟩
      exact posAfterPush_val s.pos
    · intro hstart hfinish hall hpush
      exact posAfter_eq_self hstart hfinish hall hpush s.pos
  · have hclosed : i.needsClosedBlock = true := by
      rcases hi with rfl | rfl | rfl | ⟨b, rfl⟩ | rfl | ⟨x, rfl⟩ <;> rfl
    exact exec_openBlock hclosed hregs hpos

end Sys2Proof.Proofs.RatePosition
end

section
/-! PROOF. What the decoder answers (30_encoding.md R50, R51): its checks on a header with a known opcode are `LegalHeader` and
`requiredPayload`, which are written from the rules, read through the header's fields. -/

namespace Sys2Proof.Proofs.DecodeAnswers

open Machine

variable {hdr : Word} {op : Opcode}

/-! ### The rules, through the header's fields -/

theorem legalHeader_iff_fields : LegalHeader hdr ↔
    (opcField hdr).toNat ∈ opcodeValues ∧ (rsvField hdr).toNat = 0 ∧
    (if (opcField hdr).toNat = 0x10 then (argField hdr).toNat ≤ 1 else (argField hdr).toNat = 0) ∧
    ((opcField hdr).toNat = 0x24 ∨ (opcField hdr).toNat = 0x2A ∨ (lenField hdr).toNat = 0) := by
  rw [Laws.opcField_toNat, Laws.argField_toNat, Laws.rsvField_toNat, Laws.lenField_toNat, LegalHeader]

theorem code_mem_opcodeValues (op : Opcode) : op.code.toNat ∈ opcodeValues := by
  cases op <;> decide

/-- Each of the 22 values names a command (30_encoding.md R49). -/
theorem opcodeOf_ne_none {c : BitVec 8} (h : c.toNat ∈ opcodeValues) : opcodeOf c ≠ none := by
  revert c; decide +kernel

/-- Where the opcode map has no command the header is not legal. -/
theorem not_legalHeader_of_opcodeOf_none (h : opcodeOf (opcField hdr) = none) : ¬ LegalHeader hdr := fun hl =>
  opcodeOf_ne_none (legalHeader_iff_fields.mp hl).1 h

/-! ### The decoder's checks on a known opcode -/

theorem argLegal_iff (op : Opcode) (a : BitVec 8) : op.argLegal a = true ↔
    if op.code.toNat = 0x10 then a.toNat ≤ 1 else a.toNat = 0 := by
  have hzero : a = 0 ↔ a.toNat = 0 := BitVec.toNat_inj.symm
  have hone : a = 1 ↔ a.toNat = 1 := BitVec.toNat_inj.symm
  cases op with
  | init =>
    simp only [Opcode.argLegal, Opcode.code, Bool.or_eq_true, beq_iff_eq, hzero, hone]
    exact Nat.le_one_iff_eq_zero_or_eq_one.symm
  | _ => simpa [Opcode.argLegal, Opcode.code] using hzero

theorem hasLen_iff (op : Opcode) : op.hasLen = true ↔ op.code.toNat = 0x24 ∨ op.code.toNat = 0x2A := by
  cases op <;> decide

theorem lenLegal_iff (op : Opcode) (n : BitVec 32) : op.lenLegal n = true ↔
    op.code.toNat = 0x24 ∨ op.code.toNat = 0x2A ∨ n.toNat = 0 := by
  have hzero : n = 0 ↔ n.toNat = 0 := BitVec.toNat_inj.symm
  rw [Opcode.lenLegal, Bool.or_eq_true, hasLen_iff, beq_iff_eq, hzero, or_assoc]

/-- The decoder's header check is the rule's. -/
theorem headerLegal_iff_legalHeader (ho : opcField hdr = op.code) : op.headerLegal hdr = true ↔ LegalHeader hdr := by
  have hrsv : rsvField hdr = 0 ↔ (rsvField hdr).toNat = 0 := BitVec.toNat_inj.symm
  rw [legalHeader_iff_fields, ho, Opcode.headerLegal, Bool.and_eq_true, Bool.and_eq_true, beq_iff_eq, hrsv,
    argLegal_iff, lenLegal_iff, and_assoc]
  exact (and_iff_right (code_mem_opcodeValues op)).symm

/-- The decoder's payload count is the rule's. -/
theorem npay_eq_requiredPayload (ho : opcField hdr = op.code) : op.npay hdr = requiredPayload hdr := by
  rw [requiredPayload, ← Laws.opcField_toNat, ← Laws.lenField_toNat, ho]
  cases op <;> rfl

/-! ### The three answers -/

/-- The decoder's three answers, each with what the rules say of the frame. -/
theorem decode_answers (f : Frame) :
    (¬ LegalHeader f.hdr ∧ decode f = .error .illegal) ∨
    (LegalHeader f.hdr ∧ f.pay.length ≠ requiredPayload f.hdr ∧ decode f = .error .length) ∨
    (LegalHeader f.hdr ∧ f.pay.length = requiredPayload f.hdr ∧ ∃ i : Instr, decode f = .ok i) := by
  rcases Laws.decode_cases f with ⟨hnone, hd⟩ | ⟨op, hsome, hanswer⟩
  · exact .inl ⟨not_legalHeader_of_opcodeOf_none hnone, hd⟩
  · have ho : opcField f.hdr = op.code := Laws.opcodeOf_some hsome
    rw [← Bool.not_eq_true, headerLegal_iff_legalHeader ho, npay_eq_requiredPayload ho] at hanswer
    rcases hanswer with hillegal | hlength | ⟨hl, hn, hd⟩
    · exact .inl hillegal
    · exact .inr (.inl hlength)
    · exact .inr (.inr ⟨hl, hn, _, hd⟩)

/-- Settles O46: exactly one of the three conditions holds of a frame, and the decoder answers differently in each. -/
theorem decodeAnswersAsHeaderAndCountSay : Obligations.DecodeAnswersAsHeaderAndCountSay := by
  intro f
  rcases decode_answers f with ⟨hl, hd⟩ | ⟨hl, hn, hd⟩ | ⟨hl, hn, i, hd⟩
  · simp [hl, hd]
  · simp [hl, hn, hd]
  · simp [hl, hn, hd]

end Sys2Proof.Proofs.DecodeAnswers
end

section
/-! PROOF. The nine commands of the field-arithmetic unit (40_field_unit.md R68 to R77): the frame of each, the value of its
response word modulo `P`, and the whole next state. -/

namespace Sys2Proof.Proofs.FieldUnit

open Machine Config Laws
open Host (Outcome)

/-! ### Frames -/

/-- Decoding asks for one payload count for each header, so an accepted frame with its count changed is `E_LENGTH`
(30_encoding.md R50). -/
theorem isFrameOf_of_decode {hdr : Word} {pay : List Word} {i : Instr}
    (h : decode { hdr := hdr, pay := pay } = .ok i) : IsFrameOf hdr pay i := by
  obtain ⟨-, -, hok⟩ := DecodeAnswers.decodeAnswersAsHeaderAndCountSay { hdr := hdr, pay := pay }
  obtain ⟨hlegal, hcount⟩ := hok.mpr ⟨i, h⟩
  refine ⟨h, fun p hp => ?_⟩
  obtain ⟨-, hlength, -⟩ := DecodeAnswers.decodeAnswersAsHeaderAndCountSay { hdr := hdr, pay := p }
  exact hlength.mp ⟨hlegal, fun hp' => hp (hp'.trans hcount.symm)⟩

/-- What the encoder writes is the command's frame, once its header fits and its operands are read back. -/
theorem isFrameOf_encode {i : Instr} (hfits : HeaderFits.Statement i) (hwf : i.wf = true)
    (hoperands : assemble i.opcode (encode i) = i) : IsFrameOf (encode i).hdr i.payload i := by
  obtain ⟨hopcode, hlegal, hcount⟩ := hfits hwf
  refine isFrameOf_of_decode ?_
  change decode (encode i) = .ok i
  simp [decode, hopcode, hlegal, hcount, hoperands]

/-! ### Canonical words and their residues -/

theorem residue_ofNat_mod (n : Nat) : residue (BitVec.ofNat 64 (n % P)) = (n : ZMod P) := by
  rw [residue, toNat_ofNat_mod, ZMod.natCast_mod]

/-- A canonical word is found from any number with its residue. -/
theorem eq_ofNat_mod {w : Word} (hw : Canonical w) {n : Nat} (h : residue w = (n : ZMod P)) :
    w = BitVec.ofNat 64 (n % P) := by
  have hn : Canonical (BitVec.ofNat 64 (n % P)) := by
    rw [Canonical, toNat_ofNat_mod]; exact Nat.mod_lt _ (by norm_num)
  exact eq_of_residue hw hn (h.trans (residue_ofNat_mod n).symm)

/-! ### The Montgomery radix `2 ^ 64` and `RINV` cancel -/

theorem mul_rinv_mul_radix (x : ZMod P) : x * RINV * (2 ^ 64 : Nat) = x := by
  rw [mul_assoc, rinv_radix, mul_one]

theorem mul_radix_mul_rinv (x : ZMod P) : x * (2 ^ 64 : Nat) * RINV = x := by
  rw [mul_right_comm, mul_rinv_mul_radix]

/-! ### The values of the field functions -/

/-- The property that defines Montgomery reduction (R66): times the radix, the result is the operand again. -/
theorem montred_mul_radix (x : Nat) : (montred x).toNat * 2 ^ 64 % P = x % P := by
  rw [← ZMod.natCast_eq_natCast_iff', Nat.cast_mul]
  change residue (montred x) * _ = _
  rw [residue_montred, mul_rinv_mul_radix]

/-- `R2 * RINV` is the Montgomery radix modulo `P` (R78). -/
theorem r2_mul_rinv : (R2 : ZMod P) * RINV = (2 ^ 64 : Nat) := by
  rw [← Nat.cast_mul, ZMod.natCast_eq_natCast_iff']
  norm_num

theorem residue_fromInt (v : Word) : residue (fromInt v) = residue v * (2 ^ 64 : Nat) := by
  rw [fromInt, residue_montred, Nat.cast_mul, mul_assoc, r2_mul_rinv, residue]

theorem residue_canon (a : Word) : residue (canon a) = residue a * RINV := residue_montred _

theorem fromInt_eq (v : Word) : fromInt v = BitVec.ofNat 64 (v.toNat * 2 ^ 64 % P) := by
  refine eq_ofNat_mod (montred_canonical _) ?_
  rw [← fromInt, residue_fromInt, Nat.cast_mul, residue]

/-- CANON undoes FROMINT on canonical words (R69). -/
theorem canon_fromInt {a : Word} (ha : Canonical a) : canon (fromInt a) = a := by
  refine eq_of_residue (montred_canonical _) ha ?_
  rw [residue_canon, residue_fromInt, mul_radix_mul_rinv]

/-- `ONE` is the unit of `fmul`, up to reduction of the other operand (R73). -/
theorem fmul_one (a : Word) : fmul a ONE = BitVec.ofNat 64 (a.toNat % P) := by
  refine eq_ofNat_mod (fmul_canonical a ONE) ?_
  rw [residue_fmul, residue_one, mul_radix_mul_rinv, residue]

theorem fneg_eq (a : Word) : fneg a = BitVec.ofNat 64 ((P - a.toNat % P) % P) := by
  have hle : a.toNat % P ≤ P := (Nat.mod_lt _ (by norm_num)).le
  refine eq_ofNat_mod (fsub_canonical 0 a) ?_
  calc residue (fsub 0 a) = residue 0 - residue a := residue_fsub 0 a
    _ = (P : Nat) - residue a := by rw [ZMod.natCast_self]; rfl
    _ = ((P - a.toNat % P : Nat) : ZMod P) := by rw [Nat.cast_sub hle, ZMod.natCast_mod, residue]

/-- One conditional subtraction of `P` reduces the sum of canonical operands (R71). -/
theorem fadd_toNat_of_canonical {a b : Word} (ha : Canonical a) (hb : Canonical b) :
    (fadd a b).toNat = if P ≤ a.toNat + b.toNat then a.toNat + b.toNat - P else a.toNat + b.toNat := by
  rw [fadd_toNat, Nat.add_mod_eq_ite, Nat.mod_eq_of_lt ha, Nat.mod_eq_of_lt hb]

/-- One conditional addition of `P` reduces the difference of canonical operands (R72). -/
theorem fsub_toNat_of_canonical {a b : Word} (ha : Canonical a) (hb : Canonical b) :
    (fsub a b).toNat = if a.toNat < b.toNat then a.toNat + P - b.toNat else a.toNat - b.toNat := by
  have hsub := fsub_toNat a b
  split
  · next hlt =>
    rw [← Int.add_emod_right, Int.emod_eq_of_lt (by omega) (by omega)] at hsub
    omega
  · next hge =>
    rw [Int.emod_eq_of_lt (by omega) (by omega)] at hsub
    omega

/-! ### The zero test of INV and DIV -/

theorem withNonzero_zero {a : Word} (ha : a.toNat % P = 0) (s : State) (k : Outcome State Fault Refusal) :
    s.withNonzero a k = .next { s with fault := true, cause := 1 } := if_pos ha

theorem withNonzero_nonzero {a : Word} (ha : a.toNat % P ≠ 0) (s : State) (k : Outcome State Fault Refusal) :
    s.withNonzero a k = k := if_neg ha

theorem exec_inv (a : Word) (s : State) :
    exec (.inv a) s = s.withNonzero a (.next (s.respond [fpow a (P - 2)])) := by
  rw [← finv_eq_fpow]; rfl

theorem exec_div (a b : Word) (s : State) :
    exec (.div a b) s = s.withNonzero b (.next (s.respond [fmul a (fpow b (P - 2))])) := by
  rw [← finv_eq_fpow]; rfl

/-! ### The commands -/

/-- Settles O8: the zero test, then the power that repeated squaring computes. -/
theorem invFaultsOnZeroElseFermatPower : Obligations.InvFaultsOnZeroElseFermatPower := by
  intro a
  refine ⟨isFrameOf_encode (HeaderFits.inv a) rfl rfl, fun s => ⟨fun hzero => ?_, fun hne => ?_⟩⟩
  · rw [exec_inv, withNonzero_zero hzero]
  · rw [exec_inv, withNonzero_nonzero hne]; rfl

/-- Settles O10: the zero test on the divisor alone, then the product with its power. -/
theorem divFaultsOnZeroElseMultipliesByInverse : Obligations.DivFaultsOnZeroElseMultipliesByInverse := by
  intro a b
  refine ⟨isFrameOf_encode (HeaderFits.div a b) rfl rfl, fun s => ⟨fun hzero => ?_, fun hne => ?_⟩⟩
  · rw [exec_div, withNonzero_zero hzero]
  · rw [exec_div, withNonzero_nonzero hne]; rfl

/-- Settles O1: `R2` turns the reduction into a multiplication by the radix. -/
theorem fromintRespondsWithMontgomeryWord : Obligations.FromintRespondsWithMontgomeryWord := by
  intro v
  refine ⟨isFrameOf_encode (HeaderFits.fromint v) rfl rfl, fun s => ?_⟩
  rw [← fromInt_eq]; rfl

/-- Settles O2: CANON is Montgomery reduction of the word itself, and undoes FROMINT. -/
theorem canonRespondsWithCanonicalValue : Obligations.CanonRespondsWithCanonicalValue := by
  intro a
  refine ⟨isFrameOf_encode (HeaderFits.canon a) rfl rfl,
    ⟨canon a, montred_toNat _, montred_canonical _, montred_mul_radix _, fun s => rfl⟩, fun ha s => ?_⟩
  have hround : canon (BitVec.ofNat 64 (a.toNat * 2 ^ 64 % P)) = a := by rw [← fromInt_eq, canon_fromInt ha]
  change Outcome.next (s.respond [canon _]) = _
  rw [hround]; rfl

/-- Settles O3: the reduction's value, bound and defining congruence hold of every operand. -/
theorem montredReducesEvery128BitOperand : Obligations.MontredReducesEvery128BitOperand := by
  intro lo hi
  exact ⟨isFrameOf_encode (HeaderFits.montred lo hi) rfl rfl, montred (wide lo hi), montred_toNat _,
    montred_canonical _, montred_mul_radix _, fun s => rfl⟩

/-- Settles O4: the sum modulo `P`, and its single correction. -/
theorem addRespondsWithModularSum : Obligations.AddRespondsWithModularSum := by
  intro a b
  exact ⟨isFrameOf_encode (HeaderFits.add a b) rfl rfl, fadd a b, fadd_toNat a b, fadd_toNat_of_canonical, fun s => rfl⟩

/-- Settles O5: the difference modulo `P`, and its single correction. -/
theorem subRespondsWithModularDifference : Obligations.SubRespondsWithModularDifference := by
  intro a b
  exact ⟨isFrameOf_encode (HeaderFits.sub a b) rfl rfl, fsub a b, fsub_toNat a b, fsub_toNat_of_canonical, fun s => rfl⟩

/-- Settles O6: MUL is Montgomery reduction of the product, and `ONE` is its unit. -/
theorem mulRespondsWithMontgomeryProduct : Obligations.MulRespondsWithMontgomeryProduct := by
  intro a b
  refine ⟨isFrameOf_encode (HeaderFits.mul a b) rfl rfl,
    ⟨fmul a b, fmul_toNat a b, montred_mul_radix _, fun s => rfl⟩, fun s => ?_⟩
  rw [← fmul_one]; rfl

/-- Settles O7: NEG is `fsub` from 0, whose residue is the negated one. -/
theorem negRespondsWithAdditiveInverse : Obligations.NegRespondsWithAdditiveInverse := by
  intro a
  refine ⟨isFrameOf_encode (HeaderFits.neg a) rfl rfl, fun s => ⟨?_, rfl⟩⟩
  rw [← fneg_eq]; rfl

end Sys2Proof.Proofs.FieldUnit
end

section
/-! PROOF. The permutation engine (41_permutation_engine.md): the byte S-box and the layers of a round, word by word, and the
five commands INIT, PERMUTE, TRACE, RDSTATE and RDDIGEST. -/

namespace Sys2Proof.Proofs.PermutationEngine

open Machine Config Laws
open FieldUnit (isFrameOf_of_decode)
open Host (Outcome)

/-! ### A word is its eight bytes (20_memory.md R32) -/

theorem byteOf_toNat (w : Word) (k : Nat) : (byteOf w k).toNat = w.toNat / 2 ^ (8 * k) % 2 ^ 8 := by
  rw [byteOf, BitVec.extractLsb'_toNat, Nat.shiftRight_eq_div_pow]

theorem byteOf_ofBytes (b : Fin 8 → Byte) (k : Fin 8) : byteOf (ofBytes b) k = b k := by
  apply BitVec.eq_of_toNat_eq
  rw [byteOf_toNat, ofBytes_toNat]
  have hb : ∀ i, (b i).toNat < 2 ^ 8 := fun i => (b i).isLt
  have h0 := hb 0; have h1 := hb 1; have h2 := hb 2; have h3 := hb 3
  have h4 := hb 4; have h5 := hb 5; have h6 := hb 6; have h7 := hb 7
  fin_cases k <;> simp only [Fin.reduceFinMk, Fin.isValue] <;> omega

theorem ofBytes_byteOf (w : Word) : ofBytes (fun k => byteOf w k) = w := by
  apply BitVec.eq_of_toNat_eq
  have hw := w.isLt
  simp only [ofBytes_toNat, byteOf_toNat, Fin.coe_ofNat_eq_mod, Nat.reduceMod, Nat.reduceMul]
  omega

/-- Words and lists of eight bytes, one to one. -/
def wordBytes : Word ≃ (Fin 8 → Byte) where
  toFun w k := byteOf w k
  invFun := ofBytes
  left_inv := ofBytes_byteOf
  right_inv b := funext (byteOf_ofBytes b)

/-- The byte S-box is the bijection that `LUT` induces on the lists of eight bytes. -/
theorem sboxLookup_eq (T : Tables) :
    sboxLookup T = (wordBytes.trans (Equiv.piCongrRight fun _ => T.lut)).trans wordBytes.symm := rfl

/-- Settles O16: the byte S-box is a composition of three bijections, read byte by byte. -/
theorem sboxLookupSubstitutesEachByteAndIsBijective : Obligations.SboxLookupSubstitutesEachByteAndIsBijective := by
  intro T
  refine ⟨fun w k hk => byteOf_ofBytes (fun k => T.lut (byteOf w k)) ⟨k, hk⟩, ?_⟩
  rw [sboxLookup_eq]
  exact Equiv.bijective _

/-! ### The words of a round -/

theorem mdsRow_eq_sum (T : Tables) (S : Sponge) (r : Fin 16) :
    mdsRow T S r = ∑ c : Fin 16, (T.mdsCol (r - c)).toInt * ((S[c].toNat % P : Nat) : Int) :=
  (Fin.sum_univ_def _).symm

theorem mdsLayer_toNat (T : Tables) (S : Sponge) (r : Fin 16) :
    ((mdsLayer T S)[r].toNat : Int) = mdsRow T S r % (P : Int) := by
  have hnonneg : 0 ≤ mdsRow T S r % (P : Int) := Int.emod_nonneg _ (by norm_num)
  rw [Fin.getElem_fin, mdsLayer_getElem, toNat_ofInt_mod, Int.toNat_of_nonneg hnonneg]

/-- A round constant is canonical, so as a raw word it keeps its value. -/
theorem roundConstant_toNat (T : Tables) (i : Fin 7) (k : Fin 16) :
    (roundConstant T i k).toNat = (T.rc ⟨16 * i.val + k.val, by omega⟩).val := by
  rw [roundConstant, BitVec.toNat_ofNat]
  exact Nat.mod_eq_of_lt (lt_trans (Fin.isLt _) (by norm_num))

theorem rcLayer_toNat (T : Tables) (i : Fin 7) (S : Sponge) (k : Fin 16) :
    (rcLayer T i S)[k].toNat = (S[k].toNat + (T.rc ⟨16 * i.val + k.val, by omega⟩).val) % P := by
  rw [Fin.getElem_fin, rcLayer_getElem, fadd_toNat, roundConstant_toNat, Fin.getElem_fin]

/-- One reduction does for the diffusion sum and the constant: reducing between the two layers changes nothing. -/
theorem roundFn_toNat (T : Tables) (i : Fin 7) (S : Sponge) (r : Fin 16) :
    ((roundFn T i S)[r].toNat : Int) =
      (mdsRow T (sboxLayer T S) r + ((T.rc ⟨16 * i.val + r.val, by omega⟩).val : Int)) % (P : Int) := by
  rw [roundFn, rcLayer_toNat, Int.natCast_emod, Nat.cast_add, mdsLayer_toNat, Int.emod_add_emod]

/-- The nonlinear layer is the only state with the words of R104. -/
theorem eq_sboxLayer {T : Tables} {S X : Sponge}
    (h : ∀ (k : Nat) (hk : k < 16), X[k] = if k < 4 then sboxLookup T S[k] else pow7 S[k]) : X = sboxLayer T S :=
  Vector.ext fun k hk => (h k hk).trans (sboxLayer_getElem T S k hk).symm

/-- Settles O19: the layers' words, and a round as their composition. -/
theorem roundWordFormula : Obligations.RoundWordFormula := by
  refine ⟨fun T S r => ?_, rcLayer_toNat, fun T i S X hX r => ?_⟩
  · rw [mdsLayer_toNat, mdsRow_eq_sum]
  · rw [roundFn_toNat, ← eq_sboxLayer hX, mdsRow_eq_sum]

/-! ### The permutation and its snapshots -/

theorem permute_eq_foldl (T : Tables) (S : Sponge) :
    permute T S = (List.finRange 7).foldl (fun X i => roundFn T i X) S := rfl

/-- Lists of `m` words one after another: word `m * j + k` is word `k` of list `j`. -/
theorem getElem?_flatMap_range {m : Nat} (t : Nat → Vector Word m) (n j k : Nat) (hj : j < n) (hk : k < m) :
    ((List.range n).flatMap fun i => (t i).toList)[m * j + k]? = some (t j)[k] := by
  induction n with
  | zero => omega
  | succ n ih =>
    have hlen : ((List.range n).flatMap fun i => (t i).toList).length = m * n := by
      simp [List.length_flatMap, mul_comm]
    rw [List.range_succ, List.flatMap_append, List.flatMap_singleton]
    rcases Nat.lt_succ_iff_lt_or_eq.mp hj with hlt | rfl
    · have hin : m * j + k < m * n := calc
        m * j + k < m * (j + 1) := by rw [Nat.mul_succ]; exact Nat.add_lt_add_left hk _
        _ ≤ m * n := Nat.mul_le_mul_left m hlt
      rw [List.getElem?_append_left (hin.trans_eq hlen.symm), ih hlt]
    · rw [List.getElem?_append_right (hlen.trans_le (Nat.le_add_right _ _)), hlen, Nat.add_sub_cancel_left]
      simp [hk]

theorem traceWords_length (T : Tables) (S : Sponge) : (traceWords T S).length = 128 := by
  simp [traceWords, List.length_flatMap]

/-- TRACE's response is snapshot-major (R112). -/
theorem traceWords_getElem? (T : Tables) (S : Sponge) (j k : Nat) (hj : j < 8) (hk : k < 16) :
    (traceWords T S)[16 * j + k]? = some (snapshot T S j)[k] :=
  getElem?_flatMap_range (snapshot T S) 8 j k hj hk

/-! ### The commands -/

/-- The two checks of a command that needs a closed block, with the next state of each fault (60_exceptions.md R160, R163). -/
theorem withClosedBlock_outcomes (s : State) (k : Sponge → Outcome State Fault Refusal) :
    (s.regs = none → s.withClosedBlock k = .next { s with fault := true, cause := 4 }) ∧
    ∀ S : Sponge, s.regs = some S →
      (s.pos ≠ 0 → s.withClosedBlock k = .next { s with fault := true, cause := 5 }) ∧
      (s.pos = 0 → s.withClosedBlock k = k S) :=
  ⟨withClosedBlock_none k, fun _ hS => ⟨withClosedBlock_open k hS, withClosedBlock_closed k hS⟩⟩

/-- Settles O21: the seven rounds, and the two checks before them. -/
theorem permuteRunsSevenRoundsOrFaults : Obligations.PermuteRunsSevenRoundsOrFaults :=
  ⟨isFrameOf_of_decode rfl, fun S => ⟨permute_eq_foldl tables S, permute_canonical tables S⟩,
    fun s => withClosedBlock_outcomes s _⟩

/-- Settles O22: `snapshot` is the sequence of states, `traceWords` the response that lists them. -/
theorem traceReturnsEightSnapshotsOrFaults : Obligations.TraceReturnsEightSnapshotsOrFaults := by
  refine ⟨isFrameOf_of_decode rfl, fun s => ?_⟩
  obtain ⟨hnone, hsome⟩ := withClosedBlock_outcomes s fun S =>
    .next ((s.load (snapshot tables S 7) s.pos).respond (traceWords tables S))
  refine ⟨hnone, fun S hS => ?_⟩
  obtain ⟨hopen, hclosed⟩ := hsome S hS
  refine ⟨hopen, fun hpos => ⟨snapshot tables S, traceWords tables S, rfl, fun j hj => snapshot_succ tables S hj,
    traceWords_length tables S, traceWords_getElem? tables S, fun j k hj hk => ?_, snapshot_seven tables S,
    hclosed hpos⟩⟩
  exact snapshot_canonical tables S j hj.1 k hk

/-- Settles O15: INIT has no check, and its state is `init(D)` word by word. -/
theorem initLoadsTheDomainState : Obligations.InitLoadsTheDomainState := by
  refine ⟨isFrameOf_of_decode rfl, isFrameOf_of_decode rfl, fun d s => ⟨initSponge d, fun k hk => ?_, rfl, rfl⟩⟩
  rw [initSponge_getElem]
  cases d <;> rfl

theorem toList_eq_map_finRange (S : Sponge) : S.toList = (List.finRange 16).map fun k => S[k] := by
  apply List.ext_getElem <;> simp

theorem digestWords_eq (S : Sponge) : digestWords S = [S[0], S[1], S[2], S[3], S[4]] := by
  rw [digestWords, toList_eq_map_finRange]; rfl

/-- Settles O24: RDSTATE checks for a state alone, and responds with all of it. -/
theorem rdstateReturnsAllWordsOrFaults : Obligations.RdstateReturnsAllWordsOrFaults := by
  refine ⟨isFrameOf_of_decode rfl, fun s => ⟨withState_none _, fun S hS => ?_⟩⟩
  rw [← toList_eq_map_finRange]
  exact withState_some _ hS

/-- Settles O25: the two checks, then the first five words of the state. -/
theorem rddigestReturnsFirstFiveWordsOrFaults : Obligations.RddigestReturnsFirstFiveWordsOrFaults := by
  refine ⟨isFrameOf_of_decode rfl, fun s => ?_⟩
  simp only [← digestWords_eq]
  exact withClosedBlock_outcomes s _

end Sys2Proof.Proofs.PermutationEngine
end

section
/-! PROOF. The sponge controller (42_sponge_controller.md): the padding and the blocks it is cut into, and the eight commands
ABSORB, SQUEEZE, PUSH, FINISH, ABSORBALL, HASH10, HASHPAIR and HASHVARLEN. -/

namespace Sys2Proof.Proofs.SpongeController

open Machine Config Laws
open FieldUnit (isFrameOf_of_decode isFrameOf_encode)
open PermutationEngine (withClosedBlock_outcomes digestWords_eq toList_eq_map_finRange)

/-! ### Frames: operands read back from the payload, and the headers with a length -/

/-- A vector that stands in a payload behind the words `pre` is read back from there (30_encoding.md R47). -/
theorem payWords_append {n : Nat} (pre : List Word) (v : Vector Word n) (post : List Word) :
    payWords (pre ++ v.toList ++ post) pre.length n = v := by
  ext k hk
  rw [payWords_getElem, payWord]
  simp [List.getElem?_append, hk]

theorem payWords_toList {n : Nat} (v : Vector Word n) : payWords v.toList 0 n = v := by
  simpa using payWords_append [] v []

theorem payWords_pair_fst (a b : Digest) : payWords (a.toList ++ b.toList) 0 5 = a :=
  payWords_append [] a b.toList

theorem payWords_pair_snd (a b : Digest) : payWords (a.toList ++ b.toList) 5 5 = b := by
  simpa using payWords_append a.toList b []

theorem isFrameOf_absorb (b : Block) : IsFrameOf 0x20 b.toList (.absorb b) :=
  isFrameOf_encode (HeaderFits.absorb b) rfl (congrArg Instr.absorb (payWords_toList b))

theorem isFrameOf_hash10 (b : Block) : IsFrameOf 0x28 b.toList (.hash10 b) :=
  isFrameOf_encode (HeaderFits.hash10 b) rfl (congrArg Instr.hash10 (payWords_toList b))

theorem isFrameOf_hashpair (a b : Digest) : IsFrameOf 0x29 (a.toList ++ b.toList) (.hashpair a b) :=
  isFrameOf_encode (HeaderFits.hashpair a b) rfl
    (congrArg₂ Instr.hashpair (payWords_pair_fst a b) (payWords_pair_snd a b))

/-- The header of a command on `n` words: `LEN` above bit 32, `OPC` at the bottom (30_encoding.md R46). -/
theorem headerOf_len (op : Opcode) {n : Nat} (hn : n < 2 ^ 32) :
    headerOf op 0 (BitVec.ofNat 32 n) = BitVec.ofNat 64 (n * 2 ^ 32 + op.code.toNat) := by
  rw [headerOf, BitVec.toNat_ofNat, Nat.mod_eq_of_lt hn]
  congr 1
  change op.code.toNat + 2 ^ 8 * 0 + 2 ^ 32 * n = _
  ring

theorem isFrameOf_absorball {x : List Word} (hx : x.length < 2 ^ 32) :
    IsFrameOf (BitVec.ofNat 64 (x.length * 2 ^ 32 + 0x24)) x (.absorball x) := by
  have hframe := isFrameOf_encode (HeaderFits.absorball x) (decide_eq_true hx) rfl
  rwa [show (encode (.absorball x)).hdr = _ from headerOf_len .absorball hx] at hframe

theorem isFrameOf_hashvarlen {x : List Word} (hx : x.length < 2 ^ 32) :
    IsFrameOf (BitVec.ofNat 64 (x.length * 2 ^ 32 + 0x2A)) x (.hashvarlen x) := by
  have hframe := isFrameOf_encode (HeaderFits.hashvarlen x) (decide_eq_true hx) rfl
  rwa [show (encode (.hashvarlen x)).hdr = _ from headerOf_len .hashvarlen hx] at hframe

/-! ### Padding (R132) -/

/-- Undoes the padding: strips the zeros at the end, then the marker. -/
def unpad (y : List Word) : List Word := (y.rdropWhile (· == 0)).dropLast

/-- The marker `ONE` is not zero, so stripping zeros stops at it. -/
theorem rdropWhile_marker (x : List Word) (z : Nat) :
    (x ++ [ONE] ++ List.replicate z 0).rdropWhile (· == 0) = x ++ [ONE] := by
  induction z with
  | zero => rw [List.replicate_zero, List.append_nil]; exact List.rdropWhile_concat_neg _ _ _ (by decide)
  | succ z ih =>
    rw [List.replicate_succ', ← List.append_assoc, List.rdropWhile_concat_pos _ _ _ (by decide), ih]

theorem unpad_pad (x : List Word) : unpad (pad x) = x := by
  rw [unpad, pad, rdropWhile_marker, List.dropLast_concat]

/-- The number of blocks is `ceil((n + 1) / 10)`. -/
theorem block_count (n : Nat) : (n + 1 + 9) / 10 = n / 10 + 1 := by omega

/-- Settles O32: the length is a count, and `unpad` is a left inverse of padding. -/
theorem paddingHasTheStatedLengthAndIsInjective : Obligations.PaddingHasTheStatedLengthAndIsInjective := by
  refine ⟨fun x => ⟨padZeros x.length, rfl, ?_, rfl, ?_⟩, fun x y hxy => ?_⟩
  · exact Nat.le_of_lt_succ (Nat.mod_lt _ (by norm_num))
  · rw [block_count, pad_length]
  · exact Function.LeftInverse.injective unpad_pad hxy

/-! ### Blocks (R133) -/

/-- The first `m` blocks of ten words of `y`, in order. -/
def blocksOf : Nat → List Word → List Block
  | 0, _ => []
  | m + 1, y => blockOf y :: blocksOf m (y.drop 10)

theorem absorbBlocks_eq_foldl (T : Tables) (m : Nat) (S : Sponge) (y : List Word) :
    absorbBlocks T m S y = (blocksOf m y).foldl (absorb T) S := by
  induction m generalizing S y with
  | zero => rfl
  | succ m ih => exact ih _ _

theorem blocksOf_length (m : Nat) (y : List Word) : (blocksOf m y).length = m := by
  induction m generalizing y with
  | zero => rfl
  | succ m ih => exact congrArg (· + 1) (ih _)

theorem blockOf_toList {y : List Word} (hy : 10 ≤ y.length) : (blockOf y).toList = y.take 10 := by
  apply List.ext_getElem
  · simp [hy]
  · intro k hk _
    have hk' : k < y.length := lt_of_lt_of_le (by simpa using hk) hy
    simp [blockOf, hk']

/-- A sequence of `10 * m` words is its `m` blocks one after another. -/
theorem flatten_blocksOf {m : Nat} {y : List Word} (hy : y.length = 10 * m) :
    ((blocksOf m y).map fun b => b.toList).flatten = y := by
  induction m generalizing y with
  | zero => exact (List.length_eq_zero_iff.mp hy).symm
  | succ m ih =>
    have hdrop : (y.drop 10).length = 10 * m := by rw [List.length_drop]; omega
    rw [blocksOf, List.map_cons, List.flatten_cons, ih hdrop, blockOf_toList (by omega), List.take_append_drop]

/-- The blocks that ABSORBALL and HASHVARLEN absorb for the operand `x`. -/
def paddedBlocks (x : List Word) : List Block := blocksOf ((pad x).length / 10) (pad x)

theorem flatten_paddedBlocks (x : List Word) : ((paddedBlocks x).map fun b => b.toList).flatten = pad x := by
  refine flatten_blocksOf ?_
  rw [pad_blocks, pad_length]

theorem paddedBlocks_length (x : List Word) : (paddedBlocks x).length = (x.length + 1 + 9) / 10 := by
  rw [paddedBlocks, blocksOf_length, pad_blocks, block_count]

theorem absorbAll_eq_foldl (T : Tables) (S : Sponge) (x : List Word) :
    absorbAll T S x = (paddedBlocks x).foldl (absorb T) S := absorbBlocks_eq_foldl ..

/-! ### The commands on a state -/

/-- Settles O27: the two checks, then the permutation of the overwritten state. -/
theorem absorbOverwritesTheRateThenPermutesOrFaults : Obligations.AbsorbOverwritesTheRateThenPermutesOrFaults := by
  intro b
  refine ⟨isFrameOf_absorb b, fun s => ?_⟩
  obtain ⟨hnone, hsome⟩ := withClosedBlock_outcomes s fun S => .next ((s.load (absorb tables S b) s.pos).respond [])
  refine ⟨hnone, fun S hS => ?_⟩
  obtain ⟨hopen, hclosed⟩ := hsome S hS
  exact ⟨hopen, fun hpos => ⟨overwriteRate S b, overwriteRate_getElem S b, hclosed hpos⟩⟩

theorem rateWords_eq (S : Sponge) : rateWords S = (List.finRange 10).map fun k => S[k.val] := by
  rw [rateWords, toList_eq_map_finRange]; rfl

/-- Settles O28: the two checks, then the rate part of the state as it was. -/
theorem squeezeReturnsTheRateThenPermutesOrFaults : Obligations.SqueezeReturnsTheRateThenPermutesOrFaults := by
  refine ⟨isFrameOf_of_decode rfl, fun s => ?_⟩
  simp only [← rateWords_eq]
  exact withClosedBlock_outcomes s _

/-- PUSH with a state present (R136). -/
theorem exec_push_some {s : State} {S : Sponge} (hS : s.regs = some S) (w : Word) :
    exec (.push w) s = .next ((s.load (if s.pos = 9 then permute tables (writeAt S s.pos w) else writeAt S s.pos w)
      (posAfterPush s.pos)).respond []) := withState_some _ hS

/-- Settles O29: PUSH checks for a state alone; whether the block is full decides the permutation. -/
theorem pushWritesAtPosAndPermutesAFullBlockOrFaults : Obligations.PushWritesAtPosAndPermutesAFullBlockOrFaults := by
  intro w
  refine ⟨isFrameOf_encode (HeaderFits.push w) rfl rfl, fun s => ⟨withState_none _, fun S hS => ?_⟩⟩
  refine ⟨writeAt S s.pos w, fun k hk => (writeAt_getElem S s.pos w k hk).trans (if_congr eq_comm rfl rfl),
    fun hfull => ?_, fun hpart => ⟨posAfterPush s.pos, ?_, ?_⟩⟩
  · rw [exec_push_some hS, if_pos hfull, hfull]; rfl
  · have hlt : s.pos.val ≠ 9 := fun h => hpart (Fin.ext h)
    rw [RatePosition.posAfterPush_val, Nat.mod_eq_of_lt (by omega)]
  · rw [exec_push_some hS, if_neg hpart]; rfl

/-- The marker and the zeros stand from `POS` to the end of the rate part; the words below and the capacity part stay. -/
theorem closeBlock_getElem_of_pos (S : Sponge) (p : Fin 10) (k : Nat) (hk : k < 16) : (closeBlock S p)[k] =
    if k < p.val then S[k] else if k = p.val then ONE else if k < 10 then 0 else S[k] := by
  rw [closeBlock_getElem]
  rcases lt_trichotomy k p.val with hlt | heq | hgt
  · rw [if_neg hlt.ne, if_neg (fun h => hlt.not_gt h.1), if_pos hlt]
  · rw [if_pos heq, if_neg heq.not_lt, if_pos heq]
  · simp only [hgt.ne', hgt.not_gt, hgt, true_and, if_false]

/-- Settles O30: FINISH checks for a state alone. -/
theorem finishPadsThenPermutesOrFaults : Obligations.FinishPadsThenPermutesOrFaults := by
  refine ⟨isFrameOf_of_decode rfl, fun s => ⟨withState_none _, fun S hS => ?_⟩⟩
  exact ⟨closeBlock S s.pos, closeBlock_getElem_of_pos S s.pos, withState_some _ hS⟩

/-- Settles O31: the two checks, then the fold of `absorb` over the padded blocks. -/
theorem absorballAbsorbsThePaddedBlocksOrFaults : Obligations.AbsorballAbsorbsThePaddedBlocksOrFaults := by
  intro x
  refine ⟨isFrameOf_absorball, fun s => ?_⟩
  obtain ⟨hnone, hsome⟩ := withClosedBlock_outcomes s fun S => .next ((s.load (absorbAll tables S x) 0).respond [])
  refine ⟨hnone, fun S hS => ?_⟩
  obtain ⟨hopen, hclosed⟩ := hsome S hS
  refine ⟨hopen, fun hpos => ⟨paddedBlocks x, flatten_paddedBlocks x, paddedBlocks_length x, ?_⟩⟩
  rw [← absorbAll_eq_foldl]
  exact hclosed hpos

/-! ### The hash commands (R143, R145, R147) -/

/-- The state a hash command leaves; it is a function of the operands alone. -/
def hashState : Instr → Option Sponge
  | .hash10 b => some (absorb tables (initSponge .fixedLength) b)
  | .hashpair a b => some (absorb tables (initSponge .fixedLength) (pairBlock a b))
  | .hashvarlen x => some (absorbAll tables (initSponge .variableLength) x)
  | _ => none

/-- The common effect of the hash commands: load the hash of the operands, close the block, respond with the digest. -/
theorem exec_hash {i : Instr} {H : Sponge} (h : hashState i = some H) (s : State) :
    exec i s = .next { s with regs := some H, pos := 0, responses := s.responses ++ [[H[0], H[1], H[2], H[3], H[4]]] } := by
  rw [← digestWords_eq]
  cases i with
  | hash10 | hashpair | hashvarlen => cases h; rfl
  | _ => cases h

theorem hashState_isSome {i : Instr} (h : i.isHash = true) : ∃ H, hashState i = some H := by
  cases i with
  | hash10 | hashpair | hashvarlen => exact ⟨_, rfl⟩
  | _ => cases h

/-- Settles O38: `hashState` is no function of the state before the command. -/
theorem hashCommandsIgnoreThePreviousState : Obligations.HashCommandsIgnoreThePreviousState := by
  intro i hi
  obtain ⟨H, hH⟩ := hashState_isSome hi
  exact ⟨H, _, rfl, exec_hash hH⟩

/-- Settles O33: the block over the state of the fixed-length domain, permuted. -/
theorem hash10HashesTheBlockFromTheFixedDomain : Obligations.Hash10HashesTheBlockFromTheFixedDomain := by
  intro b
  refine ⟨isFrameOf_hash10 b, fun s => ⟨overwriteRate (initSponge .fixedLength) b, _, fun k hk => ?_, rfl,
    exec_hash rfl s⟩⟩
  rw [overwriteRate_getElem]
  split
  · rfl
  · next hcapacity => rw [initSponge_getElem, if_neg hcapacity]

/-- Settles O34: the two commands have the same `hashState` where the block is the concatenation. -/
theorem hashpairIsHash10OfTheConcatenation : Obligations.HashpairIsHash10OfTheConcatenation := by
  intro a b
  exact ⟨isFrameOf_hashpair a b, pairBlock a b, Vector.toList_append, fun s => ⟨_, exec_hash rfl s, exec_hash rfl s⟩⟩

/-- Settles O35: the padded blocks, folded from the all-zero state of the variable-length domain. -/
theorem hashvarlenHashesThePaddedSequence : Obligations.HashvarlenHashesThePaddedSequence := by
  intro x
  refine ⟨isFrameOf_hashvarlen, fun s => ⟨initSponge .variableLength, _, paddedBlocks x, fun k hk => ?_,
    flatten_paddedBlocks x, absorbAll_eq_foldl tables _ x, exec_hash rfl s⟩⟩
  rw [initSponge_getElem]
  exact ite_self _

end Sys2Proof.Proofs.SpongeController
end

section
/-! PROOF. Faults (60_exceptions.md R160 to R165): every command either takes the first of its checks that fails or has its
effect; from that, the order of the checks in a step, what fault entry writes, and what a halted unit does. -/

namespace Sys2Proof.Proofs.Exceptions

open Machine
open RatePosition (Effect posAfter exec_effect exec_openBlock)

variable {i : Instr} {s : State}

/-! ### Steps 4 to 6 of R162: one command -/

theorem exec_noState (h : i.needsState = true) (hregs : s.regs = none) : exec i s = .next (s.raise .noState) := by
  cases i with
  | permute | trace | rddigest | absorb | squeeze | absorball => exact Laws.withClosedBlock_none _ hregs
  | rdstate | push | finish => exact Laws.withState_none _ hregs
  | fromint | canon | montred | add | sub | mul | neg | inv | div => cases h
  | init | hash10 | hashpair | hashvarlen => cases h

/-- `E_SEQ` is raised only by commands that `E_NOSTATE` is raised by (R160). -/
theorem needsState_of_needsClosedBlock (h : i.needsClosedBlock = true) : i.needsState = true := by
  cases i with
  | permute | trace | rddigest | absorb | squeeze | absorball => rfl
  | _ => cases h

theorem exec_zeroOperand (h : i.zeroOperand = true) (s : State) : exec i s = .next (s.raise .invZero) := by
  cases i with
  | inv a => exact FieldUnit.withNonzero_zero (eq_of_beq h) s _
  | div a b => exact FieldUnit.withNonzero_zero (eq_of_beq h) s _
  | _ => cases h

/-- Everything a command can do: it takes its first failing check, or no check fails and it has its effect. -/
theorem exec_cases (i : Instr) (s : State) :
    (∃ e : Cause, firstFault i s = some e.code ∧ exec i s = .next (s.raise e)) ∨
    (firstFault i s = none ∧ Effect s (posAfter i s.pos) (exec i s)) := by
  by_cases hstate : i.needsState = true ∧ s.regs = none
  · obtain ⟨hneeds, hregs⟩ := hstate
    exact .inl ⟨.noState, if_pos ⟨hneeds, hregs⟩, exec_noState hneeds hregs⟩
  have hregs : i.needsState = true → s.regs ≠ none := not_and.mp hstate
  by_cases hblock : i.needsClosedBlock = true ∧ s.pos ≠ 0
  · obtain ⟨hclosed, hpos⟩ := hblock
    exact .inl ⟨.seq, (if_neg hstate).trans (if_pos ⟨hclosed, hpos⟩),
      exec_openBlock hclosed (hregs (needsState_of_needsClosedBlock hclosed)) hpos⟩
  by_cases hzero : i.zeroOperand = true
  · exact .inl ⟨.invZero, (if_neg hstate).trans ((if_neg hblock).trans (if_pos hzero)), exec_zeroOperand hzero s⟩
  · have hnone : firstFault i s = none := (if_neg hstate).trans ((if_neg hblock).trans (if_neg hzero))
    exact .inr ⟨hnone, exec_effect hnone⟩

/-- A command whose first failing check has code `c` writes `FAULT` and `CAUSE` and nothing else (R163). -/
theorem exec_of_firstFault_some {c : BitVec 8} (h : firstFault i s = some c) :
    exec i s = .next { s with fault := true, cause := c } := by
  rcases exec_cases i s with ⟨e, he, hexec⟩ | ⟨hnone, -⟩
  · obtain rfl : e.code = c := Option.some.inj (he.symm.trans h)
    exact hexec
  · cases hnone.symm.trans h

/-! ### One step -/

/-- A halted unit discards the frame that waits, if one does (R165). -/
theorem step_halted (hreset : s.resetLine = false) (hfault : s.fault = true) :
    step s = .next { s with commands := s.commands.tail } := by
  rcases Laws.step_cases s with ⟨hr, -⟩ | ⟨-, hc, hstep⟩ | ⟨f, rest, -, hc, ⟨-, hstep⟩ | ⟨hf, -⟩ | ⟨hf, -⟩⟩
  · cases hreset.symm.trans hr
  · have hkept : { s with commands := s.commands.tail } = s := by rw [hc, List.tail_nil, ← hc]
    rw [hstep, hkept]
  · rw [hstep, hc, List.tail_cons]
  · cases hfault.symm.trans hf
  · cases hfault.symm.trans hf

/-- A running unit raises the fault of the frame it cannot decode, or runs the command it decodes (R162, steps 2 to 6). -/
theorem step_running {f : Frame} {rest : List Frame} (hreset : s.resetLine = false) (hfault : s.fault = false)
    (hcommands : s.commands = f :: rest) :
    (∀ e, decode f = .error e → step s = .next (State.raise { s with commands := rest } (causeOf e))) ∧
    (∀ i, decode f = .ok i → step s = exec i { s with commands := rest }) := by
  refine ⟨fun e hdecode => ?_, fun i hdecode => ?_⟩
  · simp [step, State.fetch, hreset, hfault, hcommands, hdecode]
  · simp [step, State.fetch, hreset, hfault, hcommands, hdecode]

/-- Settles O40: `decode` gives steps 2 and 3 of the order, `firstFault` steps 4 to 6. -/
theorem stepChecksInTheStatedOrder : Obligations.StepChecksInTheStatedOrder := by
  intro s f rest hreset hcommands
  refine ⟨fun hfault => ?_, fun hfault => ?_⟩
  · rw [step_halted hreset hfault, hcommands, List.tail_cons]
  · obtain ⟨herror, hok⟩ := step_running hreset hfault hcommands
    obtain ⟨hillegal, hlength, hcommand⟩ := DecodeAnswers.decodeAnswersAsHeaderAndCountSay f
    refine ⟨fun hheader => herror _ (hillegal.mp hheader), fun hheader => ⟨fun hcount => ?_, fun hcount => ?_⟩⟩
    · exact herror _ (hlength.mp ⟨hheader, hcount⟩)
    · obtain ⟨i, hi⟩ := hcommand.mp ⟨hheader, hcount⟩
      rw [hok i hi]
      refine ⟨i, hi, fun c hc => exec_of_firstFault_some hc, fun hnone => ?_⟩
      obtain ⟨R, r, hexec⟩ := exec_effect (s := { s with commands := rest }) hnone
      exact ⟨R, _, r, hexec⟩

/-- A running unit's step that ends halted took a fault entry on the state with its frame consumed: of the cases of a step only
a rejected frame and a failing check set `FAULT`. -/
theorem raised_of_step_running {t : State} (hrunning : s.fault = false) (hstep : step s = .next t)
    (hfault : t.fault = true) :
    ∃ (f : Frame) (rest : List Frame) (e : Cause), s.commands = f :: rest ∧
      t = State.raise { s with commands := rest } e := by
  rcases Laws.step_cases s with ⟨-, h⟩ | ⟨-, -, h⟩ | ⟨f, rest, -, hc, ⟨hf, -⟩ | ⟨-, d, -, h⟩ | ⟨-, i, -, h⟩⟩
  · cases hstep.symm.trans h; cases hfault
  · cases hstep.symm.trans h; cases hrunning.symm.trans hfault
  · cases hrunning.symm.trans hf
  · exact ⟨f, rest, causeOf d, hc, Host.Outcome.next.inj (hstep.symm.trans h)⟩
  · rcases exec_cases i { s with commands := rest } with ⟨e, -, hexec⟩ | ⟨-, R, r, hexec⟩
    · exact ⟨f, rest, e, hc, Host.Outcome.next.inj (hstep.symm.trans (h.trans hexec))⟩
    · cases hstep.symm.trans (h.trans hexec); cases hrunning.symm.trans hfault

/-- Settles O41: a fault entry writes `FAULT` and `CAUSE`, and its code is one of 1 to 5. -/
theorem faultEntryWritesOnlyFaultAndCause : Obligations.FaultEntryWritesOnlyFaultAndCause := by
  intro s t hrunning hstep hfault
  obtain ⟨f, rest, e, hc, ht⟩ := raised_of_step_running hrunning hstep hfault
  obtain ⟨hlow, hhigh⟩ := Laws.code_range e
  exact ⟨f, rest, e.code, hc, hlow, hhigh, ht⟩

/-- Settles O42, by induction on the number of steps: each takes the first frame off the stream. -/
theorem haltedUnitOnlyDiscardsFrames : Obligations.HaltedUnitOnlyDiscardsFrames := by
  intro n
  induction n with
  | zero => intro s _ _; rfl
  | succ n ih =>
    intro s hfault hreset
    calc Sys2Proof.core.run (n + 1) s
      _ = Sys2Proof.core.run n { s with commands := s.commands.tail } := Laws.run_succ n (step_halted hreset hfault)
      _ = .next { s with commands := s.commands.tail.drop n } := ih _ hfault hreset
      _ = .next { s with commands := s.commands.drop (n + 1) } := by rw [List.drop_tail]

end Sys2Proof.Proofs.Exceptions
end

section
/-! PROOF. The encoder and the decoder undo each other (30_encoding.md R46 to R51): operands are read back from the payload the
encoder writes, and every part of an accepted frame is what the encoder writes there. -/

namespace Sys2Proof.Proofs.Encoding

open Machine Laws
open SpongeController (payWords_toList payWords_pair_fst payWords_pair_snd)

/-! ### From commands to frames and back -/

/-- The header of every well-formed command fits it: one lemma per command, collected. -/
theorem headerFits (i : Instr) : HeaderFits.Statement i := by
  cases i with
  | fromint v => exact HeaderFits.fromint v
  | canon a => exact HeaderFits.canon a
  | montred lo hi => exact HeaderFits.montred lo hi
  | add a b => exact HeaderFits.add a b
  | sub a b => exact HeaderFits.sub a b
  | mul a b => exact HeaderFits.mul a b
  | neg a => exact HeaderFits.neg a
  | inv a => exact HeaderFits.inv a
  | div a b => exact HeaderFits.div a b
  | init d => exact HeaderFits.init d
  | permute => exact HeaderFits.permute
  | trace => exact HeaderFits.trace
  | rdstate => exact HeaderFits.rdstate
  | rddigest => exact HeaderFits.rddigest
  | absorb b => exact HeaderFits.absorb b
  | squeeze => exact HeaderFits.squeeze
  | push w => exact HeaderFits.push w
  | finish => exact HeaderFits.finish
  | absorball x => exact HeaderFits.absorball x
  | hash10 b => exact HeaderFits.hash10 b
  | hashpair a b => exact HeaderFits.hashpair a b
  | hashvarlen x => exact HeaderFits.hashvarlen x

/-- The operands the encoder writes are the ones the decoder takes (R47). -/
theorem assemble_encode (i : Instr) : assemble i.opcode (encode i) = i := by
  cases i with
  | fromint | canon | montred | add | sub | mul | neg | inv | div | push => rfl
  | permute | trace | rdstate | rddigest | squeeze | finish => rfl
  | absorball | hashvarlen => rfl
  | init d => cases d <;> rfl
  | absorb b => exact congrArg Instr.absorb (payWords_toList b)
  | hash10 b => exact congrArg Instr.hash10 (payWords_toList b)
  | hashpair a b => exact congrArg₂ Instr.hashpair (payWords_pair_fst a b) (payWords_pair_snd a b)

/-- Settles O47: the header fits the command, and its operands are read back. -/
theorem decodeOfEncodeIsTheCommand : Obligations.DecodeOfEncodeIsTheCommand := by
  intro i hwf
  exact (FieldUnit.isFrameOf_encode (headerFits i) hwf (assemble_encode i)).1

/-! ### From frames to commands and back -/

variable {op : Opcode} {f : Frame}

theorem opcode_assemble (op : Opcode) (f : Frame) : (assemble op f).opcode = op := by
  cases op <;> rfl

/-- A legal `ARG` is the one the encoder writes: INIT's is its domain's number, every other is 0. -/
theorem arg_assemble (h : op.argLegal (argField f.hdr) = true) : (assemble op f).arg = argField f.hdr := by
  cases op with
  | init =>
    rcases Bool.or_eq_true_iff.mp h with hzero | hone
    · simp [assemble, Instr.arg, eq_of_beq hzero, domainOf, Domain.arg]
    · simp [assemble, Instr.arg, eq_of_beq hone, domainOf, Domain.arg]
  | _ => exact (eq_of_beq h).symm

/-- A legal `LEN` is the one the encoder writes: a sequence's length, or 0. -/
theorem len_assemble (h : op.lenLegal (lenField f.hdr) = true) (hn : f.pay.length = op.npay f.hdr) :
    (assemble op f).len = lenField f.hdr := by
  cases op with
  | absorball | hashvarlen => exact (congrArg (BitVec.ofNat 32) hn).trans (BitVec.ofNat_toNat _ _)
  | _ => exact (eq_of_beq h).symm

theorem toList_payWords {pay : List Word} {start n : Nat} (h : start + n ≤ pay.length) :
    (payWords pay start n).toList = (pay.drop start).take n := by
  apply List.ext_getElem
  · simp; omega
  · intro k hk _
    have hk' : start + k < pay.length := by simp at hk; omega
    simp [payWords, payWord, hk']

/-- The operands taken from a payload of the required length are all of it. -/
theorem payload_assemble (hn : f.pay.length = op.npay f.hdr) : (assemble op f).payload = f.pay := by
  cases op with
  | init | permute | trace | rdstate | rddigest | squeeze | finish => exact (List.length_eq_zero_iff.mp hn).symm
  | fromint | canon | neg | inv | push =>
    obtain ⟨w, hw⟩ := List.length_eq_one_iff.mp hn
    simp [assemble, Instr.payload, payWord, hw]
  | montred | add | sub | mul | div =>
    obtain ⟨v, w, hvw⟩ := List.length_eq_two.mp hn
    simp [assemble, Instr.payload, payWord, hvw]
  | absorb | hash10 =>
    have hn' : f.pay.length = 10 := hn
    exact (toList_payWords (by omega)).trans (by simp [hn'])
  | hashpair =>
    have hn' : f.pay.length = 10 := hn
    have htail : (f.pay.drop 5).take 5 = f.pay.drop 5 := List.take_of_length_le (by simp [hn'])
    calc (payWords f.pay 0 5).toList ++ (payWords f.pay 5 5).toList
      _ = f.pay.take 5 ++ f.pay.drop 5 := by
        rw [toList_payWords (by omega), toList_payWords (by omega), htail, List.drop_zero]
      _ = f.pay := List.take_append_drop 5 f.pay
  | absorball | hashvarlen => rfl

/-- A sequence whose length is the field `LEN` is shorter than `2 ^ 32`. -/
theorem wf_assemble (hn : f.pay.length = op.npay f.hdr) : (assemble op f).wf = true := by
  cases op with
  | absorball | hashvarlen => exact decide_eq_true (hn.trans_lt (lenField f.hdr).isLt)
  | _ => rfl

/-- Settles O48: the header is made of its fields, each of them checked, and the payload is the operands. -/
theorem encodeOfDecodeIsTheFrame : Obligations.EncodeOfDecodeIsTheFrame := by
  intro f i hdecode
  rcases decode_cases f with ⟨-, h⟩ | ⟨op, hop, ⟨-, h⟩ | ⟨-, -, h⟩ | ⟨hlegal, hn, h⟩⟩
  · cases hdecode.symm.trans h
  · cases hdecode.symm.trans h
  · cases hdecode.symm.trans h
  · obtain rfl : i = assemble op f := Except.ok.inj (hdecode.symm.trans h)
    refine ⟨?_, wf_assemble hn⟩
    simp only [Opcode.headerLegal, Bool.and_eq_true, beq_iff_eq] at hlegal
    obtain ⟨⟨hrsv, harg⟩, hlen⟩ := hlegal
    rw [encode, opcode_assemble, arg_assemble harg, len_assemble hlen hn, payload_assemble hn,
      headerOf_fields (opcodeOf_some hop) hrsv]

/-- Settles O49: each frame evaluates to its command. -/
theorem framesOfTheSpecDecode : Obligations.FramesOfTheSpecDecode :=
  ⟨rfl, rfl, rfl, rfl, rfl, rfl, rfl, rfl⟩

end Sys2Proof.Proofs.Encoding
end

section
/-! PROOF. The field laws (40_field_unit.md R65, R75, R78, R79): a raw word stands for an element of the integers modulo `P`, the
field functions are the field's operations on elements, and a canonical word is decided by its element. -/

namespace Sys2Proof.Proofs.FieldLaws

open Machine Config Laws
open FieldUnit (residue_ofNat_mod residue_canon residue_fromInt mul_radix_mul_rinv mul_rinv_mul_radix withNonzero_nonzero)
open Host (Outcome)

/-! ### Elements -/

/-- The element a raw word stands for: its residue divided by the Montgomery radix. -/
def element (w : Word) : ZMod P := residue w * RINV

/-- Canonical words are equal when their elements are. -/
theorem eq_of_element {a b : Word} (ha : Canonical a) (hb : Canonical b) (h : element a = element b) : a = b :=
  eq_of_residue_rinv ha hb h

theorem element_fadd (a b : Word) : element (fadd a b) = element a + element b := by
  rw [element, residue_fadd, add_mul]; rfl

theorem element_fsub (a b : Word) : element (fsub a b) = element a - element b := by
  rw [element, residue_fsub, sub_mul]; rfl

theorem element_fmul (a b : Word) : element (fmul a b) = element a * element b := by
  rw [element, residue_fmul, element, element]; ring

theorem element_fpow (a : Word) (e : Nat) : element (fpow a e) = element a ^ e := residue_fpow a e

theorem element_one : element ONE = 1 := by rw [element, residue_one, mul_comm, rinv_radix]

theorem element_zero : element 0 = 0 := zero_mul _

theorem element_fneg (a : Word) : element (fneg a) = -element a := by
  rw [fneg, element_fsub, element_zero, zero_sub]

theorem element_fromInt (v : Word) : element (fromInt v) = v.toNat := by
  rw [element, residue_fromInt, mul_radix_mul_rinv]; rfl

theorem element_finv (a : Word) : element (finv a) = element a ^ (P - 2) := by rw [finv_eq_fpow, element_fpow]

theorem element_mul_radix (a : Word) : element a * (2 ^ 64 : Nat) = residue a := mul_rinv_mul_radix _

/-- The element counts a word modulo `P`. -/
theorem element_eq_iff (a b : Word) : element a = element b ↔ a.toNat % P = b.toNat % P := by
  rw [← val, ← val, ← residue_eq_iff]
  refine ⟨fun h => ?_, congrArg (· * (RINV : ZMod P))⟩
  rw [← element_mul_radix a, h, element_mul_radix]

theorem element_eq_zero_iff (a : Word) : element a = 0 ↔ a.toNat % P = 0 := by
  rw [← element_zero, element_eq_iff]; rfl

theorem canonical_mod (n : Nat) : Canonical (BitVec.ofNat 64 (n % P)) := by
  rw [Canonical, toNat_ofNat_mod]; exact Nat.mod_lt _ (by norm_num)

theorem element_mod (a : Word) : element (BitVec.ofNat 64 (a.toNat % P)) = element a := by
  rw [element, residue_ofNat_mod]; rfl

/-- CANON is the element, as a number below `P` (R69). -/
theorem residue_canon_eq_element (a : Word) : ((canon a).toNat : ZMod P) = element a := residue_canon a

theorem canon_canonical (a : Word) : Canonical (canon a) := montred_canonical _

theorem canon_toNat_eq_mod {a : Word} {n : Nat} (h : element a = n) : (canon a).toNat = n % P := by
  rw [← Nat.mod_eq_of_lt (canon_canonical a), ← ZMod.natCast_eq_natCast_iff',
    residue_canon_eq_element, h]

theorem canon_toNat_eq_emod {a : Word} {z : Int} (h : element a = z) : ((canon a).toNat : Int) = z % (P : Int) := by
  have hlt : ((canon a).toNat : Int) < P := Int.ofNat_lt.mpr (canon_canonical a)
  rw [← Int.emod_eq_of_lt (Int.natCast_nonneg _) hlt]
  refine (ZMod.intCast_eq_intCast_iff' _ _ _).mp ?_
  rw [Int.cast_natCast, residue_canon_eq_element, h]

/-! ### Inverses -/

/-- Fermat's little theorem on elements. -/
theorem element_mul_finv {a : Word} (ha : a.toNat % P ≠ 0) : element a * element (finv a) = 1 := by
  have hne : element a ≠ 0 := (element_eq_zero_iff a).not.mpr ha
  have hexp : P - 2 + 1 = P - 1 := by norm_num
  have := Fact.mk modulus_prime
  rw [element_finv, ← pow_succ', hexp, ZMod.pow_card_sub_one_eq_one hne]

theorem finv_canonical (a : Word) : Canonical (finv a) := fpowSquaring_canonical _ _ _

theorem fmul_finv {a : Word} (ha : a.toNat % P ≠ 0) : fmul a (finv a) = ONE :=
  eq_of_element (fmul_canonical _ _) one_canonical (by rw [element_fmul, element_mul_finv ha, element_one])

theorem finv_nonzero {a : Word} (ha : a.toNat % P ≠ 0) : (finv a).toNat % P ≠ 0 := by
  intro hzero
  have hprod := element_mul_finv ha
  rw [(element_eq_zero_iff _).mpr hzero, mul_zero, ← element_zero, ← element_one, element_eq_iff] at hprod
  exact absurd hprod (by decide)

theorem finv_finv {a : Word} (ha : a.toNat % P ≠ 0) : finv (finv a) = BitVec.ofNat 64 (a.toNat % P) := by
  refine eq_of_element (finv_canonical _) (canonical_mod _) ?_
  rw [element_mod]
  exact (left_inv_eq_right_inv (element_mul_finv ha) (element_mul_finv (finv_nonzero ha))).symm

/-- A canonical word that multiplies to `ONE` is the inverse. -/
theorem eq_finv {a q : Word} (ha : a.toNat % P ≠ 0) (hq : Canonical q) (h : fmul a q = ONE) : q = finv a := by
  have hprod : element q * element a = 1 := by rw [mul_comm, ← element_fmul, h, element_one]
  exact eq_of_element hq (finv_canonical a) (left_inv_eq_right_inv hprod (element_mul_finv ha))

theorem fmul_fdiv {b : Word} (a : Word) (hb : b.toNat % P ≠ 0) : fmul (fdiv a b) b = BitVec.ofNat 64 (a.toNat % P) := by
  refine eq_of_element (fmul_canonical _ _) (canonical_mod _) ?_
  calc element (fmul (fdiv a b) b) = element a * (element b * element (finv b)) := by
        rw [fdiv, element_fmul, element_fmul]; ring
    _ = element (BitVec.ofNat 64 (a.toNat % P)) := by rw [element_mul_finv hb, mul_one, element_mod]

/-- Settles O9: existence by Fermat's little theorem, uniqueness because an element has one inverse. -/
theorem invRespondsWithUniqueInverse : Obligations.InvRespondsWithUniqueInverse := by
  intro a ha
  exact ⟨finv a, finv_canonical a, fmul_finv ha, fun q hq h => eq_finv ha hq h, fun s => withNonzero_nonzero ha s _⟩

/-- Settles O11: DIV multiplies by the inverse, which the divisor cancels. -/
theorem divIsExactAndIsInvThenMul : Obligations.DivIsExactAndIsInvThenMul := by
  intro a b hb
  exact ⟨fdiv a b, finv b, fmul_fdiv a hb, fun s =>
    ⟨withNonzero_nonzero hb s _, withNonzero_nonzero hb s _, rfl⟩⟩

/-! ### The laws -/

/-- Settles O13: both sides are canonical, and their elements are equal by the laws of a ring. -/
theorem fieldFunctionsObeyTheFieldLaws : Obligations.FieldFunctionsObeyTheFieldLaws := by
  intro a b c
  refine ⟨?_, ?_, ?_, ?_, ?_, ?_, FieldUnit.fmul_one a, ?_, fun ha => ⟨fmul_finv ha, finv_finv ha⟩⟩
  · refine eq_of_element (fadd_canonical _ _) (fadd_canonical _ _) ?_
    simp only [element_fadd, add_comm]
  · refine eq_of_element (fadd_canonical _ _) (fadd_canonical _ _) ?_
    simp only [element_fadd, add_assoc]
  · refine eq_of_element (fmul_canonical _ _) (fmul_canonical _ _) ?_
    simp only [element_fmul, mul_comm]
  · refine eq_of_element (fmul_canonical _ _) (fmul_canonical _ _) ?_
    simp only [element_fmul, mul_assoc]
  · refine eq_of_element (fmul_canonical _ _) (fadd_canonical _ _) ?_
    simp only [element_fmul, element_fadd, mul_add]
  · refine eq_of_element (fadd_canonical _ _) (canonical_mod _) ?_
    rw [element_fadd, element_zero, add_zero, element_mod]
  · refine eq_of_element (fadd_canonical _ _) (by decide) ?_
    rw [element_fadd, element_fneg, add_neg_cancel, element_zero]

/-- Settles O14: CANON is the element, on which the field functions are the ring's operations. -/
theorem canonIsARingHomomorphism : Obligations.CanonIsARingHomomorphism := by
  intro a b v
  refine ⟨canon_toNat_eq_mod (element_fromInt v), canon_toNat_eq_mod (n := 1) ?_, canon_toNat_eq_mod (n := 0) ?_,
    canon_toNat_eq_mod ?_, canon_toNat_eq_emod ?_, canon_toNat_eq_mod ?_, fun e => canon_toNat_eq_mod ?_, ?_⟩
  · rw [element_one, Nat.cast_one]
  · rw [element_zero, Nat.cast_zero]
  · rw [element_fadd, Nat.cast_add, residue_canon_eq_element, residue_canon_eq_element]
  · rw [element_fsub, Int.cast_sub, Int.cast_natCast, Int.cast_natCast, residue_canon_eq_element,
      residue_canon_eq_element]
  · rw [element_fmul, Nat.cast_mul, residue_canon_eq_element, residue_canon_eq_element]
  · rw [element_fpow, Nat.cast_pow, residue_canon_eq_element]
  · refine eq_of_element (montred_canonical _) (canonical_mod _) ?_
    rw [element_fromInt, residue_canon_eq_element, element_mod]

/-- Settles O17: two squarings and three products make the exponent 7. -/
theorem powerMapIsTheSeventhPower : Obligations.PowerMapIsTheSeventhPower := by
  intro w
  refine ⟨eq_of_element (fpow_canonical w 7) (fmul_canonical _ _) ?_, fpow_canonical w 7, canon_toNat_eq_mod ?_⟩
  · simp only [pow7, element_fpow, element_fmul]; ring
  · rw [pow7, element_fpow, Nat.cast_pow, residue_canon_eq_element]

/-! ### The common template of the commands (R65) -/

/-- An FAU command whose zero test passes emits one canonical word, the same in every state. -/
theorem exec_fau {i : Instr} (hfau : i.isFau = true) (hzero : i.zeroOperand = false) :
    ∃ w : Word, Canonical w ∧ ∀ s : State, exec i s = .next (s.respond [w]) := by
  cases i with
  | fromint | canon | montred => exact ⟨_, montred_canonical _, fun s => rfl⟩
  | add a b => exact ⟨fadd a b, fadd_canonical a b, fun s => rfl⟩
  | sub a b => exact ⟨fsub a b, fsub_canonical a b, fun s => rfl⟩
  | mul a b => exact ⟨fmul a b, fmul_canonical a b, fun s => rfl⟩
  | neg a => exact ⟨fneg a, fsub_canonical 0 a, fun s => rfl⟩
  | inv a => exact ⟨finv a, finv_canonical a, fun s => withNonzero_nonzero (ne_of_beq_false hzero) s _⟩
  | div a b => exact ⟨fdiv a b, fmul_canonical _ _, fun s => withNonzero_nonzero (ne_of_beq_false hzero) s _⟩
  | _ => cases hfau

/-- The zero test fails on INV and DIV of a zero element alone. -/
theorem zeroOperand_cases {i : Instr} (h : i.zeroOperand = true) :
    ∃ a b : Word, b.toNat % P = 0 ∧ (i = .inv b ∨ i = .div a b) := by
  cases i with
  | inv b => exact ⟨0, b, eq_of_beq h, .inl rfl⟩
  | div a b => exact ⟨a, b, eq_of_beq h, .inr rfl⟩
  | _ => cases h

/-! ### Operands count modulo `P`: a canonical result is decided by its element, and that by the operands' elements -/

section Congruence

variable {a a' b b' : Word} (ha : element a = element a') (hb : element b = element b')
include ha

theorem canon_congr : canon a = canon a' :=
  eq_of_residue (canon_canonical a) (canon_canonical a') (by rw [residue_canon, residue_canon]; exact ha)

theorem fneg_congr : fneg a = fneg a' :=
  eq_of_element (fsub_canonical _ _) (fsub_canonical _ _) (by rw [element_fneg, element_fneg, ha])

theorem fpow_congr (e : Nat) : fpow a e = fpow a' e :=
  eq_of_element (fpow_canonical _ _) (fpow_canonical _ _) (by rw [element_fpow, element_fpow, ha])

theorem finv_congr : finv a = finv a' := by rw [finv_eq_fpow, finv_eq_fpow, fpow_congr ha]

include hb

theorem fadd_congr : fadd a b = fadd a' b' :=
  eq_of_element (fadd_canonical _ _) (fadd_canonical _ _) (by rw [element_fadd, element_fadd, ha, hb])

theorem fsub_congr : fsub a b = fsub a' b' :=
  eq_of_element (fsub_canonical _ _) (fsub_canonical _ _) (by rw [element_fsub, element_fsub, ha, hb])

theorem fmul_congr : fmul a b = fmul a' b' :=
  eq_of_element (fmul_canonical _ _) (fmul_canonical _ _) (by rw [element_fmul, element_fmul, ha, hb])

theorem fdiv_congr : fdiv a b = fdiv a' b' := fmul_congr ha (congrArg element (finv_congr hb))

end Congruence

/-- INV and DIV behind their zero test, on two operands of one element. -/
theorem withNonzero_congr {a a' : Word} (h : a.toNat % P = a'.toNat % P) {w w' : Word} (hw : w = w') (s : State) :
    s.withNonzero a (.next (s.respond [w])) = s.withNonzero a' (.next (s.respond [w'])) := by
  subst hw
  exact if_congr (Eq.congr_left h) rfl rfl

/-- Settles O12: the response is canonical, so its element decides it, and that is a function of the operands' elements. -/
theorem fauCommandsFollowTheCommonTemplate : Obligations.FauCommandsFollowTheCommonTemplate := by
  refine ⟨fun i hfau => ?_, fun a a' b b' ha hb s => ?_⟩
  · cases hzero : i.zeroOperand with
    | false =>
      obtain ⟨w, hw, hexec⟩ := exec_fau hfau hzero
      exact .inl ⟨w, hw, hexec⟩
    | true =>
      obtain ⟨a, b, hb, hi⟩ := zeroOperand_cases hzero
      exact .inr ⟨a, b, hb, hi, Exceptions.exec_zeroOperand hzero⟩
  · have hea : element a = element a' := (element_eq_iff a a').mpr ha
    have heb : element b = element b' := (element_eq_iff b b').mpr hb
    have hrespond {w w' : Word} (h : w = w') :
        (.next (s.respond [w]) : Outcome State Fault Refusal) = .next (s.respond [w']) := by rw [h]
    exact ⟨hrespond (canon_congr hea), hrespond (fadd_congr hea heb), hrespond (fsub_congr hea heb),
      hrespond (fmul_congr hea heb), hrespond (fneg_congr hea), withNonzero_congr ha (finv_congr hea) s,
      withNonzero_congr hb (fdiv_congr hea heb) s⟩

end Sys2Proof.Proofs.FieldLaws
end

section
/-! PROOF. What holds of every command's outcome: the invariant between commands (10_state.md R14, R16, R18, R19), the words of
a response, `VALID`, and the status port that shows them. -/

namespace Sys2Proof.Proofs.Invariant

open Machine Laws Config
open Host (Outcome)

variable {s : State}

/-! ### What holds of a check's fault and of the command behind it holds of the checked command -/

section Checks

variable {Q : Outcome State Fault Refusal → Prop} (hfault : ∀ c, Q (.next (s.raise c)))
include hfault

theorem withState_rule {k : Sponge → Outcome State Fault Refusal} (hk : ∀ S, s.regs = some S → Q (k S)) :
    Q (s.withState k) := by
  rcases withState_cases (s := s) k with ⟨-, h⟩ | ⟨S, hS, h⟩
  · rw [h]; exact hfault _
  · rw [h]; exact hk S hS

theorem withClosedBlock_rule {k : Sponge → Outcome State Fault Refusal}
    (hk : ∀ S, s.regs = some S → s.pos = 0 → Q (k S)) : Q (s.withClosedBlock k) := by
  rcases withClosedBlock_cases (s := s) k with ⟨-, h⟩ | ⟨-, -, -, h⟩ | ⟨S, hS, hpos, h⟩
  · rw [h]; exact hfault _
  · rw [h]; exact hfault _
  · rw [h]; exact hk S hS hpos

theorem withNonzero_rule {a : Word} {k : Outcome State Fault Refusal} (hk : Q k) : Q (s.withNonzero a k) := by
  rcases withNonzero_cases (s := s) a k with ⟨-, h⟩ | ⟨-, h⟩
  · rw [h]; exact hfault _
  · rwa [h]

end Checks

/-! ### The invariant -/

/-- The words of `S` at `p` and above are canonical (10_state.md R14). -/
def CanonicalFrom (S : Sponge) (p : Fin 10) : Prop := ∀ (k : Nat) (h : k < 16), p.val ≤ k → Canonical S[k]

theorem inv_raise (hs : s.Inv) (c : Cause) : (s.raise c).Inv := by
  obtain ⟨-, -, hpos, hwords⟩ := hs
  exact ⟨iff_of_true rfl (code_ne_zero c), (code_range c).2, hpos, hwords⟩

theorem inv_load (hs : s.Inv) {S : Sponge} {p : Fin 10} (hS : CanonicalFrom S p) : (s.load S p).Inv := by
  obtain ⟨hfault, hcause, -, -⟩ := hs
  refine ⟨hfault, hcause, fun h => (Option.some_ne_none S h).elim, fun S' h => ?_⟩
  obtain rfl : S = S' := Option.some.inj h
  exact hS

/-- Settles O51: at reset there is neither a fault nor a state. -/
theorem invariantHoldsAtReset : Obligations.InvariantHoldsAtReset :=
  ⟨by simp, by simp, fun _ => rfl, fun S h => (Option.some_ne_none S h.symm).elim⟩

/-- PUSH leaves the words above `POS` as they are, so they stay canonical; a permutation makes all of them so. -/
theorem canonicalFrom_push {S : Sponge} {p : Fin 10} (hS : CanonicalFrom S p) (w : Word) :
    CanonicalFrom (if p = 9 then permute tables (writeAt S p w) else writeAt S p w) (posAfterPush p) := by
  intro k hk hle
  split
  · exact permute_canonical ..
  · next hpart =>
    have hlt : p.val ≠ 9 := fun h => hpart (Fin.ext h)
    rw [RatePosition.posAfterPush_val, Nat.mod_eq_of_lt (by omega)] at hle
    rw [writeAt_getElem, if_neg (by omega)]
    exact hS k hk (by omega)

/-- What the invariant says of the words of a state. -/
theorem canonicalFrom_of_inv (hs : s.Inv) {S : Sponge} (hS : s.regs = some S) : CanonicalFrom S s.pos := by
  obtain ⟨-, -, -, hwords⟩ := hs
  exact hwords S hS

/-- The outcome, where it goes on, meets the invariant. -/
def EndsInInv (o : Outcome State Fault Refusal) : Prop := ∀ t, o = .next t → t.Inv

theorem endsInInv_next {t : State} (ht : t.Inv) : EndsInInv (.next t) := fun _ h => Outcome.next.inj h ▸ ht

theorem exec_endsInInv (hs : s.Inv) (i : Instr) : EndsInInv (exec i s) := by
  have hfault (c : Cause) : EndsInInv (.next (s.raise c)) := endsInInv_next (inv_raise hs c)
  have hkeep (r : List Word) : EndsInInv (.next (s.respond r)) := endsInInv_next hs
  have hload {S : Sponge} {p : Fin 10} (r : List Word) (hS : CanonicalFrom S p) :
      EndsInInv (.next ((s.load S p).respond r)) := endsInInv_next (inv_load hs hS)
  cases i with
  | fromint | canon | montred | add | sub | mul | neg => exact hkeep _
  | inv | div => exact withNonzero_rule hfault (hkeep _)
  | rdstate => exact withState_rule hfault fun S _ => hkeep _
  | rddigest => exact withClosedBlock_rule hfault fun S _ _ => hkeep _
  | init d => exact hload _ fun k hk _ => initSponge_canonical d k hk
  | permute | squeeze | trace =>
    exact withClosedBlock_rule hfault fun S _ _ => hload _ fun k hk _ => permute_canonical tables S k hk
  | absorb b => exact withClosedBlock_rule hfault fun S _ _ => hload _ fun k hk _ => absorb_canonical tables S b k hk
  | push w => exact withState_rule hfault fun S hS => hload _ (canonicalFrom_push (canonicalFrom_of_inv hs hS) w)
  | finish => exact withState_rule hfault fun S _ => hload _ fun k hk _ => permute_canonical tables _ k hk
  | absorball x =>
    exact withClosedBlock_rule hfault fun S _ _ => hload _ fun k hk _ => absorbAll_canonical tables S x k hk
  | hash10 | hashpair => exact hload _ fun k hk _ => absorb_canonical tables _ _ k hk
  | hashvarlen x => exact hload _ fun k hk _ => absorbAll_canonical tables _ x k hk

/-- Settles O52: the invariant speaks of no stream, a fault entry sets `FAULT` with its code, and every command loads words that
are canonical from the new `POS` up. -/
theorem everyStepKeepsTheInvariant : Obligations.EveryStepKeepsTheInvariant := by
  intro s t hs
  suffices h : EndsInInv (step s) from h t
  rcases step_cases s with ⟨-, h⟩ | ⟨-, -, h⟩ | ⟨f, rest, -, -, ⟨-, h⟩ | ⟨-, e, -, h⟩ | ⟨-, i, -, h⟩⟩
  all_goals rw [h]
  · exact endsInInv_next invariantHoldsAtReset
  · exact endsInInv_next hs
  all_goals have hrest : State.Inv { s with commands := rest } := hs
  · exact endsInInv_next hrest
  · exact endsInInv_next (inv_raise hrest (causeOf e))
  · exact exec_endsInInv hrest i

/-! ### The words of a response -/

/-- The outcome, where it goes on, has no new response frame, or one with `good k` of each word `k`. -/
def Answers (s : State) (good : Nat → Word → Prop) (o : Outcome State Fault Refusal) : Prop :=
  ∀ t, o = .next t → t.responses = s.responses ∨
    ∃ r : List Word, t.responses = s.responses ++ [r] ∧ ∀ (k : Nat) (w : Word), r[k]? = some w → good k w

theorem answers_raise (good : Nat → Word → Prop) (c : Cause) : Answers s good (.next (s.raise c)) := by
  rintro _ ⟨rfl⟩
  exact .inl rfl

theorem answers_respond {good : Nat → Word → Prop} {t : State} (ht : t.responses = s.responses) {r : List Word}
    (hr : ∀ (k : Nat) (w : Word), r[k]? = some w → good k w) : Answers s good (.next (t.respond r)) := by
  rintro _ ⟨rfl⟩
  exact .inr ⟨r, congrArg (· ++ [r]) ht, hr⟩

theorem canonical_of_mem_toList {S : Sponge} (hS : CanonicalFrom S 0) {w : Word} (hw : w ∈ S.toList) : Canonical w := by
  obtain ⟨k, hk, rfl⟩ := Vector.mem_iff_getElem.mp (Vector.mem_toList_iff.mp hw)
  exact hS k hk (Nat.zero_le k)

theorem canonical_of_mem_digestWords {S : Sponge} (hS : CanonicalFrom S 0) {w : Word} (hw : w ∈ digestWords S) :
    Canonical w := canonical_of_mem_toList hS (List.mem_of_mem_take hw)

theorem canonical_of_mem_rateWords {S : Sponge} (hS : CanonicalFrom S 0) {w : Word} (hw : w ∈ rateWords S) :
    Canonical w := canonical_of_mem_toList hS (List.mem_of_mem_take hw)

/-- TRACE's first snapshot is the state as stored, the others are results of rounds. -/
theorem canonical_of_mem_traceWords {S : Sponge} (hS : CanonicalFrom S 0) {w : Word} (hw : w ∈ traceWords tables S) :
    Canonical w := by
  obtain ⟨j, -, hj⟩ := List.mem_flatMap.mp hw
  cases j with
  | zero => exact canonical_of_mem_toList hS hj
  | succ j => exact canonical_of_mem_toList (fun k hk _ => snapshot_canonical tables S (j + 1) j.succ_pos k hk) hj

/-- Settles O53: a command reads words out of a closed block, which the invariant makes canonical throughout, or computes them;
RDSTATE alone reads an open one. -/
theorem responsesAreCanonicalExceptPushedWords : Obligations.ResponsesAreCanonicalExceptPushedWords := by
  intro i s t hs
  suffices h : Answers s (fun k w => w.toNat < P ∨ (i = .rdstate ∧ k < s.pos.val)) (exec i s) from h t
  have hfault := answers_raise (s := s) fun k w => w.toNat < P ∨ (i = .rdstate ∧ k < s.pos.val)
  have hall {u : State} {r : List Word} (hu : u.responses = s.responses) (hr : ∀ w ∈ r, Canonical w) :
      Answers s (fun k w => w.toNat < P ∨ (i = .rdstate ∧ k < s.pos.val)) (.next (u.respond r)) :=
    answers_respond hu fun k w hw => .inl (hr w (List.mem_of_getElem? hw))
  have hnone {w : Word} (hw : w ∈ []) : Canonical w := absurd hw List.not_mem_nil
  have hclosed {S : Sponge} (hS : s.regs = some S) (hpos : s.pos = 0) : CanonicalFrom S 0 :=
    hpos ▸ canonicalFrom_of_inv hs hS
  cases i with
  | fromint | canon | montred | add | sub | mul | neg | inv | div =>
    cases hzero : Instr.zeroOperand _ with
    | true => rw [Exceptions.exec_zeroOperand hzero]; exact hfault _
    | false =>
      obtain ⟨w, hw, hexec⟩ := FieldLaws.exec_fau rfl hzero
      rw [hexec]
      exact hall rfl (List.forall_mem_singleton.mpr hw)
  | rdstate =>
    refine withState_rule hfault fun S hS => answers_respond rfl fun k w hw => ?_
    obtain ⟨hk, rfl⟩ := List.getElem?_eq_some_iff.mp hw
    rw [Vector.length_toList] at hk
    rw [Vector.getElem_toList]
    exact (lt_or_ge k s.pos.val).symm.imp (canonicalFrom_of_inv hs hS k hk) fun hlt => ⟨rfl, hlt⟩
  | rddigest =>
    exact withClosedBlock_rule hfault fun S hS hpos => hall rfl fun w => canonical_of_mem_digestWords (hclosed hS hpos)
  | squeeze =>
    exact withClosedBlock_rule hfault fun S hS hpos => hall rfl fun w => canonical_of_mem_rateWords (hclosed hS hpos)
  | trace =>
    exact withClosedBlock_rule hfault fun S hS hpos => hall rfl fun w => canonical_of_mem_traceWords (hclosed hS hpos)
  | init => exact hall rfl fun w => hnone
  | permute | absorb | absorball => exact withClosedBlock_rule hfault fun S _ _ => hall rfl fun w => hnone
  | push | finish => exact withState_rule hfault fun S _ => hall rfl fun w => hnone
  | hash10 | hashpair =>
    exact hall rfl fun w => canonical_of_mem_digestWords fun k hk _ => absorb_canonical tables _ _ k hk
  | hashvarlen x =>
    exact hall rfl fun w => canonical_of_mem_digestWords fun k hk _ => absorbAll_canonical tables _ x k hk

/-! ### VALID -/

/-- The outcome, where it goes on, has `VALID = v`. -/
def LeavesValid (v : Bool) (o : Outcome State Fault Refusal) : Prop := ∀ t, o = .next t → t.valid = v

theorem leavesValid_next {t : State} {v : Bool} (h : t.valid = v) : LeavesValid v (.next t) := fun _ ht =>
  Outcome.next.inj ht ▸ h

/-- The starting commands set `VALID`; every other command keeps it (10_state.md R18). -/
theorem exec_leavesValid (i : Instr) (s : State) : LeavesValid (s.valid || i.startsState) (exec i s) := by
  cases hstart : i.startsState with
  | true =>
    rw [Bool.or_true]
    cases i with
    | init | hash10 | hashpair | hashvarlen => exact leavesValid_next rfl
    | _ => cases hstart
  | false =>
    rw [Bool.or_false]
    have hfault (c : Cause) : LeavesValid s.valid (.next (s.raise c)) := leavesValid_next rfl
    have hload {S S' : Sponge} {p : Fin 10} {r : List Word} (hS : s.regs = some S) :
        LeavesValid s.valid (.next ((s.load S' p).respond r)) :=
      leavesValid_next (congrArg Option.isSome hS).symm
    cases i with
    | fromint | canon | montred | add | sub | mul | neg => exact leavesValid_next rfl
    | inv | div => exact withNonzero_rule hfault (leavesValid_next rfl)
    | rdstate => exact withState_rule hfault fun S _ => leavesValid_next rfl
    | rddigest => exact withClosedBlock_rule hfault fun S _ _ => leavesValid_next rfl
    | push | finish => exact withState_rule hfault fun S hS => hload hS
    | permute | trace | absorb | squeeze | absorball => exact withClosedBlock_rule hfault fun S hS _ => hload hS
    | init | hash10 | hashpair | hashvarlen => cases hstart

/-- Settles O54: of the cases of a step, only one that runs a command can change `VALID`. -/
theorem validIsSetOnlyByStartingCommands : Obligations.ValidIsSetOnlyByStartingCommands := by
  intro s t hreset hstep
  rcases step_cases s with ⟨hr, -⟩ | ⟨-, hc, h⟩ | ⟨f, rest, -, hc, ⟨hf, h⟩ | ⟨hf, e, hd, h⟩ | ⟨hf, i, hd, h⟩⟩
  · cases hreset.symm.trans hr
  · obtain rfl := Outcome.next.inj (hstep.symm.trans h)
    simp [hc]
  · obtain rfl := Outcome.next.inj (hstep.symm.trans h)
    simp [hf, State.valid]
  · obtain rfl := Outcome.next.inj (hstep.symm.trans h)
    simp [hc, hd, State.valid]
  · have ht : t.valid = (s.valid || i.startsState) := exec_leavesValid i { s with commands := rest } t (h.symm.trans hstep)
    exact ⟨fun hv => by simp [ht, hv], fun hv => by simp [ht, hv, hc, hf, hd]⟩

/-! ### The status port (10_state.md R18) -/

/-- The port's fields, lowest last; each lies below the next one's bit. -/
theorem status_toNat (s : State) : s.status.toNat =
    2 ^ 8 * s.cause.toNat + (2 ^ 4 * s.pos.val + (2 ^ 1 * s.fault.toNat + s.valid.toNat)) := by
  have hvalid := s.valid.toNat_le
  have hfault := s.fault.toNat_le
  have hcause := s.cause.isLt
  rw [State.status, BitVec.toNat_ofNat]
  omega

/-- A flag in a field of its own: its bit 0, and no other. -/
theorem testBit_flag (v : Bool) (b : Nat) : v.toNat.testBit b = (decide (b = 0) && v) := by
  cases b with
  | zero => cases v <;> rfl
  | succ b => cases v <;> simp [Nat.testBit_succ]

/-- Settles O55: the fields are split off one after another, `CAUSE` first. -/
theorem statusPortHasTheStatedBits : Obligations.StatusPortHasTheStatedBits := by
  intro s b
  have hvalid := s.valid.toNat_le
  have hfault := s.fault.toNat_le
  have hflags : 2 ^ 1 * s.fault.toNat + s.valid.toNat < 2 ^ 4 := by omega
  have hlow : 2 ^ 4 * s.pos.val + (2 ^ 1 * s.fault.toNat + s.valid.toNat) < 2 ^ 8 := by omega
  rw [← BitVec.testBit_toNat, status_toNat, Nat.testBit_two_pow_mul_add _ hlow, Nat.testBit_two_pow_mul_add _ hflags,
    Nat.testBit_two_pow_mul_add _ (by omega), testBit_flag, testBit_flag, BitVec.testBit_toNat]
  rcases lt_or_ge b 8 with hb | hb
  · interval_cases b <;> simp
  · rw [if_neg hb.not_gt, if_neg (by omega), if_neg (by omega), if_neg (by omega)]
    split
    · rfl
    · exact BitVec.getLsbD_of_ge _ _ (by omega)

end Sys2Proof.Proofs.Invariant
end

section
/-! PROOF. What a command depends on and what it repeats (10_state.md R12; 20_memory.md R36; 41_permutation_engine.md R112;
42_sponge_controller.md R130, R137, R147). -/

namespace Sys2Proof.Proofs.Frames

open Machine Laws
open Config (tables)
open Host (Outcome)

variable {i : Instr} {s : State}

/-! ### Commands that only read, and commands that read nothing -/

/-- An FAU command, RDSTATE or RDDIGEST that goes on does nothing but respond, with words that `S` and `POS` decide. -/
theorem exec_reader (hi : i.isFau = true ∨ i = .rdstate ∨ i = .rddigest) (hchecks : firstFault i s = none) :
    ∃ r : List Word, ∀ t : State, t.regs = s.regs → t.pos = s.pos → exec i t = .next (t.respond r) := by
  obtain ⟨hregs, hpos, hzero⟩ := RatePosition.firstFault_eq_none_iff.mp hchecks
  rcases hi with hfau | rfl | rfl
  · obtain ⟨w, -, hexec⟩ := FieldLaws.exec_fau hfau hzero
    exact ⟨[w], fun t _ _ => hexec t⟩
  · obtain ⟨S, hS⟩ := Option.ne_none_iff_exists'.mp (hregs rfl)
    exact ⟨S.toList, fun t ht _ => withState_some _ (ht.trans hS)⟩
  · obtain ⟨S, hS⟩ := Option.ne_none_iff_exists'.mp (hregs rfl)
    exact ⟨digestWords S, fun t ht htpos => withClosedBlock_closed _ (ht.trans hS) (htpos.trans (hpos rfl))⟩

/-- A starting command loads one state and emits one response, whatever the state before it. -/
theorem exec_starter (hi : i.startsState = true) :
    ∃ (S : Sponge) (r : List Word), ∀ s : State, exec i s = .next ((s.load S 0).respond r) := by
  cases i with
  | init | hash10 | hashpair | hashvarlen => exact ⟨_, _, fun s => rfl⟩
  | _ => cases hi

/-- Settles O58: sent again, a reader finds the `S` and `POS` it left, and a starter does not look. -/
theorem listedCommandsAreIdempotent : Obligations.ListedCommandsAreIdempotent := by
  intro i s hi hchecks
  have hsplit : i.startsState = true ∨ (i.isFau = true ∨ i = .rdstate ∨ i = .rddigest) := or_left_comm.mp hi
  rcases hsplit with hstart | hread
  · obtain ⟨S, r, hexec⟩ := exec_starter hstart
    exact ⟨s.load S 0, r, hexec s, hexec _⟩
  · obtain ⟨r, hexec⟩ := exec_reader hread hchecks
    exact ⟨s, r, hexec s rfl rfl, hexec _ rfl rfl⟩

/-! ### Words of `S` that a command does not read -/

/-- ABSORB reads the capacity part alone (R130). -/
theorem overwriteRate_congr {S S' : Sponge} (h : ∀ (k : Nat) (hk : k < 16), 10 ≤ k → S[k] = S'[k]) (b : Block) :
    overwriteRate S b = overwriteRate S' b := by
  ext1 k hk
  rw [overwriteRate_getElem, overwriteRate_getElem]
  split
  · rfl
  · next hcapacity => exact h k hk (Nat.le_of_not_lt hcapacity)

/-- FINISH reads the words below `POS` and the capacity part (R137). -/
theorem closeBlock_congr {S S' : Sponge} {p : Fin 10}
    (h : ∀ (k : Nat) (hk : k < 16), k < p.val ∨ 10 ≤ k → S[k] = S'[k]) : closeBlock S p = closeBlock S' p := by
  ext1 k hk
  rw [closeBlock_getElem, closeBlock_getElem]
  split
  · rfl
  · split
    · rfl
    · exact h k hk (by omega)

/-- ABSORB with a state and no open block (R130). -/
theorem exec_absorb_closed {S : Sponge} (hS : s.regs = some S) (hpos : s.pos = 0) (b : Block) :
    exec (.absorb b) s = .next ((s.load (absorb tables S b) s.pos).respond []) := withClosedBlock_closed _ hS hpos

/-- Settles O57: a reader's effect is its response, a starter's is the same everywhere, and the overwritten words of ABSORB and
FINISH are gone before the permutation. -/
theorem commandsTouchOnlyTheirSpongeWords : Obligations.CommandsTouchOnlyTheirSpongeWords := by
  refine ⟨fun i s t hi hexec => ?_, fun i s R R' p p' hi => ?_, fun s b S S' hS hpos => ?_, fun s S S' hS => ?_⟩
  · rcases Exceptions.exec_cases i s with ⟨e, -, hraise⟩ | ⟨hchecks, -⟩
    · obtain rfl := Outcome.next.inj (hexec.symm.trans hraise)
      exact ⟨rfl, rfl⟩
    · obtain ⟨r, hread⟩ := exec_reader hi hchecks
      obtain rfl := Outcome.next.inj (hexec.symm.trans (hread s rfl rfl))
      exact ⟨rfl, rfl⟩
  · obtain ⟨S, r, hexec⟩ := exec_starter hi
    rw [hexec, hexec]; rfl
  · have hexec (S : Sponge) : exec (.absorb b) { s with regs := some S } =
        .next ((s.load (absorb tables S b) s.pos).respond []) :=
      exec_absorb_closed (s := { s with regs := some S }) rfl hpos b
    rw [hexec, hexec, absorb, overwriteRate_congr hS, absorb]
  · change Outcome.next ((s.load (permute tables (closeBlock S s.pos)) 0).respond []) = _
    rw [closeBlock_congr hS]; rfl

/-! ### Commands equal in effect -/

/-- Settles O23: the same two checks, and the last snapshot is the permutation's result. -/
theorem traceLeavesWhatPermuteLeaves : Obligations.TraceLeavesWhatPermuteLeaves := by
  intro s
  cases hregs : s.regs with
  | none => exact ⟨_, _, withClosedBlock_none _ hregs, withClosedBlock_none _ hregs, rfl, rfl⟩
  | some S =>
    by_cases hpos : s.pos = 0
    · refine ⟨_, _, withClosedBlock_closed _ hregs hpos, withClosedBlock_closed _ hregs hpos, ?_, ?_⟩
      · rw [snapshot_seven]; rfl
      · simp
    · exact ⟨_, _, withClosedBlock_open _ hregs hpos, withClosedBlock_open _ hregs hpos, rfl, rfl⟩

/-- Settles O36: INIT closes the block it starts, so the two commands after it pass their checks. -/
theorem hashvarlenIsInitAbsorballRddigest : Obligations.HashvarlenIsInitAbsorballRddigest := by
  intro x s
  have happend (d : List Word) : s.responses ++ [[], [], d] = s.responses ++ [[]] ++ [[]] ++ [d] := by simp
  refine ⟨s.load (absorbAll tables (initSponge .variableLength) x) 0, _, rfl, ?_⟩
  rw [happend]; rfl

end Sys2Proof.Proofs.Frames
end

section
/-! PROOF. The layers of a round on elements (41_permutation_engine.md R102, R106, R116): which words the byte S-box keeps
canonical, the diffusion on canonical values, and what the first round reads. -/

namespace Sys2Proof.Proofs.Layers

open Machine Config Laws
open FieldLaws (element canon_toNat_eq_emod residue_canon_eq_element fpow_congr element_eq_iff)

/-! ### The byte S-box -/

/-- `P = 2^64 - 2^32 + 1`: a word is below it when its four high bytes are not all ones, or its four low bytes are zero. -/
theorem canonical_ofBytes_iff (b : Fin 8 → Byte) : Canonical (ofBytes b) ↔
    (b 4 = 0xFF ∧ b 5 = 0xFF ∧ b 6 = 0xFF ∧ b 7 = 0xFF → b 0 = 0 ∧ b 1 = 0 ∧ b 2 = 0 ∧ b 3 = 0) := by
  have hb : ∀ i, (b i).toNat < 2 ^ 8 := fun i => (b i).isLt
  have h0 := hb 0; have h1 := hb 1; have h2 := hb 2; have h3 := hb 3
  have h4 := hb 4; have h5 := hb 5; have h6 := hb 6; have h7 := hb 7
  have hones (x : Byte) : x = 0xFF ↔ x.toNat = 255 := BitVec.toNat_inj.symm
  have hzero (x : Byte) : x = 0 ↔ x.toNat = 0 := BitVec.toNat_inj.symm
  simp only [Canonical, P, ofBytes_toNat, hones, hzero]
  omega

/-- Settles O18: a table that fixes 0x00 and 0xFF has no other byte that it takes to one of them. -/
theorem sboxLookupKeepsCanonicityWhereTheTableFixesZeroAndFf :
    Obligations.SboxLookupKeepsCanonicityWhereTheTableFixesZeroAndFf := by
  intro T hzero hones w
  have hlutZero (x : Byte) : T.lut x = 0 ↔ x = 0 := by
    conv_lhs => rw [← hzero]
    exact T.lut.apply_eq_iff_eq
  have hlutOnes (x : Byte) : T.lut x = 0xFF ↔ x = 0xFF := by
    conv_lhs => rw [← hones]
    exact T.lut.apply_eq_iff_eq
  have hw : w.toNat < P ↔ Canonical (ofBytes fun k => byteOf w k) := by rw [PermutationEngine.ofBytes_byteOf]
  rw [hw, canonical_ofBytes_iff]
  change Canonical (ofBytes fun k => T.lut (byteOf w k)) ↔ _
  simp only [canonical_ofBytes_iff, hlutZero, hlutOnes]

/-! ### The diffusion layer -/

theorem mdsLayer_canonical (T : Tables) (S : Sponge) (r : Fin 16) : Canonical (mdsLayer T S)[r] := by
  have hlt : mdsRow T S r % (P : Int) < P := Int.emod_lt_of_pos _ (by norm_num)
  rw [← PermutationEngine.mdsLayer_toNat] at hlt
  exact Int.ofNat_lt.mp hlt

/-- The layer is the matrix on residues, whatever representatives its words are. -/
theorem residue_mdsLayer (T : Tables) (S : Sponge) (r : Fin 16) :
    residue (mdsLayer T S)[r] = ∑ c : Fin 16, ((T.mdsCol (r - c)).toInt : ZMod P) * residue S[c] := by
  calc residue (mdsLayer T S)[r] = (((mdsLayer T S)[r].toNat : Int) : ZMod P) := (Int.cast_natCast _).symm
    _ = (mdsRow T S r : ZMod P) := by rw [PermutationEngine.mdsLayer_toNat, ZMod.intCast_mod]
    _ = _ := by
      rw [PermutationEngine.mdsRow_eq_sum, Int.cast_sum]
      simp only [Int.cast_mul, Int.cast_natCast, ZMod.natCast_mod, residue]

/-- Settles O20: dividing a row's sum by the radix divides each of its words. -/
theorem mdsLayerIsTheMatrixOnCanonicalValues : Obligations.MdsLayerIsTheMatrixOnCanonicalValues := by
  intro T S r
  refine ⟨mdsLayer_canonical T S r, canon_toNat_eq_emod ?_⟩
  simp only [element, residue_mdsLayer, Finset.sum_mul, Int.cast_sum, Int.cast_mul, Int.cast_natCast,
    residue_canon_eq_element, mul_assoc]

/-! ### What the permutation reads -/

/-- The nonlinear layer reads words 4 to 15 through a power, and so through their elements. -/
theorem sboxLayer_congr {S S' : Sponge}
    (h : ∀ (k : Nat) (hk : k < 16), if k < 4 then S[k] = S'[k] else S[k].toNat % P = S'[k].toNat % P) (T : Tables) :
    sboxLayer T S = sboxLayer T S' := by
  ext1 k hk
  have hword := h k hk
  rw [sboxLayer_getElem, sboxLayer_getElem]
  split at hword
  · rw [hword]
  · next hhigh => rw [if_neg hhigh, if_neg hhigh, pow7, pow7, fpow_congr ((element_eq_iff _ _).mpr hword)]

/-- Settles O26: the first layer of round 0 already gives the same words. -/
theorem permuteReadsUpperWordsModuloP : Obligations.PermuteReadsUpperWordsModuloP := by
  intro T S S' h
  have hround : roundFn T 0 S = roundFn T 0 S' := by rw [roundFn, sboxLayer_congr h, roundFn]
  rw [permute, hround, permute]

end Sys2Proof.Proofs.Layers
end

section
/-! PROOF. Streaming (42_sponge_controller.md R136, R137, R139): the frames PUSH x0, …, PUSH x(n-1), FINISH absorb the padded
sequence, by induction on the words that are still to come, with the open block's words as the generalisation. -/

namespace Sys2Proof.Proofs.Streaming

open Machine Laws
open Config (Tables tables)
open SpongeController (exec_push_some)

/-! ### A state with an open block -/

/-- The state `S` with the words `y` pushed over the start of its rate part. -/
def withPushed (S : Sponge) (y : List Word) : Sponge := Vector.ofFn fun k => y.getD k.val S[k]

theorem withPushed_getElem (S : Sponge) (y : List Word) (k : Nat) (hk : k < 16) :
    (withPushed S y)[k] = y.getD k S[k] := by
  simp [withPushed]

theorem withPushed_nil (S : Sponge) : withPushed S [] = S := by
  ext1 k hk
  rw [withPushed_getElem, List.getD_nil]

/-- PUSH writes the next word of the block (R136). -/
theorem writeAt_withPushed (S : Sponge) {y : List Word} {p : Fin 10} (hp : p.val = y.length) (w : Word) :
    writeAt (withPushed S y) p w = withPushed S (y ++ [w]) := by
  ext1 k hk
  rw [writeAt_getElem, withPushed_getElem, withPushed_getElem, hp]
  rcases lt_trichotomy k y.length with hlt | heq | hgt
  · rw [if_neg hlt.ne', List.getD_append _ _ _ _ hlt]
  · rw [if_pos heq.symm, List.getD_append_right _ _ _ _ heq.ge, Nat.sub_eq_zero_of_le heq.le]; rfl
  · rw [if_neg hgt.ne, List.getD_eq_default _ _ hgt.le, List.getD_eq_default _ _ (by simpa using hgt)]

/-- A full block is the one ABSORB takes (R130). -/
theorem withPushed_full (S : Sponge) {z : List Word} (hz : z.length = 10) :
    withPushed S z = overwriteRate S (blockOf z) := by
  ext1 k hk
  rw [withPushed_getElem, overwriteRate_getElem]
  split
  · next hrate => simp [blockOf, hz, hrate]
  · next hcapacity => exact List.getD_eq_default _ _ (hz.trans_le (Nat.le_of_not_lt hcapacity))

theorem pad_length_of_lt {y : List Word} (hy : y.length < 10) : (pad y).length = 10 := by
  rw [pad_length]; omega

/-- FINISH pads the open block (R137). -/
theorem closeBlock_withPushed (S : Sponge) {y : List Word} {p : Fin 10} (hp : p.val = y.length) :
    closeBlock (withPushed S y) p = withPushed S (pad y) := by
  ext1 k hk
  rw [SpongeController.closeBlock_getElem_of_pos, withPushed_getElem, withPushed_getElem, hp]
  have hpad : pad y = y ++ Config.ONE :: List.replicate (padZeros y.length) 0 := List.append_assoc ..
  have hlen : y.length + (padZeros y.length + 1) = 10 := by
    simpa [hpad] using pad_length_of_lt (y := y) (hp ▸ p.isLt)
  rw [hpad]
  split_ifs with hlt heq hrate
  · rw [List.getD_append _ _ _ _ hlt]
  · rw [List.getD_append_right _ _ _ _ heq.ge, Nat.sub_eq_zero_of_le heq.le]; rfl
  · obtain ⟨j, hj⟩ : ∃ j, k - y.length = j + 1 := Nat.exists_eq_succ_of_ne_zero (by omega)
    rw [List.getD_append_right _ _ _ _ (Nat.le_of_not_lt hlt), hj, List.getD_cons_succ, List.getD_replicate _ (by omega)]
  · rw [List.getD_eq_default _ _ (Nat.le_of_not_lt hlt), List.getD_eq_default _ _ (by simp; omega)]

/-! ### Absorbing block by block -/

/-- A last block that the sequence does not fill is padded and absorbed. -/
theorem absorbAll_of_lt (T : Tables) (S : Sponge) {y : List Word} (hy : y.length < 10) :
    absorbAll T S y = permute T (withPushed S (pad y)) := by
  rw [absorbAll, pad_length_of_lt hy, withPushed_full S (pad_length_of_lt hy)]; rfl

/-- Full blocks in front do not change how the rest is padded. -/
theorem pad_append {z : List Word} (hz : z.length = 10) (x : List Word) : pad (z ++ x) = z ++ pad x := by
  have hzeros : padZeros (z ++ x).length = padZeros x.length := by
    rw [List.length_append, padZeros, padZeros]; omega
  rw [pad, hzeros, pad, List.append_assoc, List.append_assoc, List.append_assoc]

theorem blockOf_append {z : List Word} (hz : z.length = 10) (x : List Word) : blockOf (z ++ x) = blockOf z := by
  ext1 k hk
  have hkz : k < z.length := by omega
  simp [blockOf, List.getElem?_append_left hkz]

/-- A full block in front is absorbed first (R133). -/
theorem absorbAll_append (T : Tables) (S : Sponge) {z : List Word} (hz : z.length = 10) (x : List Word) :
    absorbAll T S (z ++ x) = absorbAll T (permute T (withPushed S z)) x := by
  have hblocks : (z ++ pad x).length / 10 = (pad x).length / 10 + 1 := by rw [List.length_append]; omega
  have hrest : (z ++ pad x).drop 10 = pad x := List.drop_left' hz
  rw [absorbAll, pad_append hz, hblocks, absorbBlocks, blockOf_append hz, hrest, withPushed_full S hz]
  rfl

/-! ### The frames -/

/-- The unit runs, has the words `y` pushed over the state `S`, and the frames `fs` wait. -/
structure Pushed (S : Sponge) (y : List Word) (fs : List Frame) (s : State) : Prop where
  regs : s.regs = some (withPushed S y)
  pos : s.pos.val = y.length
  fault : s.fault = false
  resetLine : s.resetLine = false
  commands : s.commands = fs

variable {s : State} {S : Sponge} {y : List Word} {fs : List Frame}

theorem Pushed.length_lt (h : Pushed S y fs s) : y.length < 10 := h.pos ▸ s.pos.isLt

/-- A running unit's step on the encoding of a command (R10). -/
theorem step_encode {i : Instr} (h : Pushed S y (encode i :: fs) s) (hwf : i.wf = true) :
    step s = exec i { s with commands := fs } :=
  (Exceptions.step_running h.resetLine h.fault h.commands).2 i (Encoding.decodeOfEncodeIsTheCommand i hwf)

/-- One PUSH: the word goes from the sequence into the open block, and a full block into the state (R136). -/
theorem step_push {w : Word} (h : Pushed S y (encode (.push w) :: fs) s) :
    ∃ (R : Sponge) (p : Fin 10) (S' : Sponge) (y' : List Word),
      step s = .next { s with regs := some R, pos := p, commands := fs, responses := s.responses ++ [[]] } ∧
      Pushed S' y' fs { s with regs := some R, pos := p, commands := fs, responses := s.responses ++ [[]] } ∧
      ∀ x, absorbAll tables S' (y' ++ x) = absorbAll tables S (y ++ w :: x) := by
  have hpos := h.pos
  have hstep : step s = .next { s with
      regs := some (if s.pos = 9 then permute tables (withPushed S (y ++ [w])) else withPushed S (y ++ [w])),
      pos := posAfterPush s.pos, commands := fs, responses := s.responses ++ [[]] } := by
    rw [step_encode h rfl, exec_push_some (s := { s with commands := fs }) h.regs, writeAt_withPushed S hpos]; rfl
  by_cases hfull : s.pos = 9
  · have hz : (y ++ [w]).length = 10 := by simp [← hpos, hfull]
    rw [if_pos hfull] at hstep
    refine ⟨_, _, permute tables (withPushed S (y ++ [w])), [], hstep, ⟨?_, ?_, h.fault, h.resetLine, rfl⟩, fun x => ?_⟩
    · rw [withPushed_nil]
    · rw [hfull]; rfl
    · rw [List.append_cons y w x, absorbAll_append tables S hz, List.nil_append]
  · have hlt : s.pos.val ≠ 9 := fun h9 => hfull (Fin.ext h9)
    rw [if_neg hfull] at hstep
    refine ⟨_, _, S, y ++ [w], hstep, ⟨rfl, ?_, h.fault, h.resetLine, rfl⟩, fun x => by rw [List.append_cons y w x]⟩
    rw [RatePosition.posAfterPush_val, Nat.mod_eq_of_lt (by omega), hpos, List.length_append]; rfl

/-- FINISH absorbs the open block, padded (R137). -/
theorem step_finish (h : Pushed S y (encode .finish :: fs) s) :
    step s = .next { s with regs := some (absorbAll tables S y), pos := 0, commands := fs,
                            responses := s.responses ++ [[]] } := by
  have hexec : step s = _ := (step_encode h rfl).trans (withState_some _ h.regs)
  rw [hexec, closeBlock_withPushed S h.pos, ← absorbAll_of_lt tables S h.length_lt]
  rfl

/-- The stream of a sequence absorbs the open block and the sequence behind it, by induction on the sequence. -/
theorem run_stream (x : List Word) (h : Pushed S y (x.map (fun w => encode (.push w)) ++ encode .finish :: fs) s) :
    Sys2Proof.core.run (x.length + 1) s = .next { s with
      regs := some (absorbAll tables S (y ++ x)), pos := 0, commands := fs,
      responses := s.responses ++ List.replicate (x.length + 1) [] } := by
  induction x generalizing s S y with
  | nil => rw [List.append_nil]; exact run_succ 0 (step_finish h)
  | cons w x ih =>
    obtain ⟨R, p, S', y', hstep, hpushed, habsorb⟩ := step_push h
    have hresponses : s.responses ++ [[]] ++ List.replicate (x.length + 1) [] =
        s.responses ++ List.replicate (x.length + 1 + 1) [] := by
      rw [List.append_assoc, List.replicate_succ (n := x.length + 1)]; rfl
    rw [List.length_cons, run_succ _ hstep, ih hpushed, habsorb, hresponses]

/-- Settles O37: with no block open, the stream absorbs the sequence alone. -/
theorem streamedFramesEqualAbsorball : Obligations.StreamedFramesEqualAbsorball := by
  intro x s S rest hregs hpos hfault hreset hcommands
  have hpushed : Pushed S [] (x.map (fun w => encode (.push w)) ++ encode .finish :: rest) s :=
    ⟨by rw [withPushed_nil, hregs], congrArg Fin.val hpos, hfault, hreset, hcommands⟩
  refine ⟨absorbAll tables S x, ?_, ?_⟩
  · rw [run_stream x hpushed, List.nil_append, ← hpos]
  · rw [show exec (.absorball x) s = _ from withClosedBlock_closed _ hregs hpos, ← hpos]; rfl

end Sys2Proof.Proofs.Streaming
end

section
/-! PROOF. The unit and its host (60_exceptions.md R162 to R166, R179; 70_reset_and_hazards.md R180): one command's checks, one
step's command, what leaves the halt, and what reset and idleness do. -/

namespace Sys2Proof.Proofs.HostActions

open Machine Laws

/-- Settles O39: the checks' fault, or the commands' common effect. -/
theorem commandsTakeTheFirstFailingCheck : Obligations.CommandsTakeTheFirstFailingCheck := by
  intro i s
  refine ⟨fun c => Exceptions.exec_of_firstFault_some, fun hchecks => ?_⟩
  obtain ⟨R, r, hexec⟩ := RatePosition.exec_effect hchecks
  exact ⟨R, _, r, hexec⟩

/-- Settles O50: a running unit's step on a frame that decodes. -/
theorem stepRunsTheDecodedCommand : Obligations.StepRunsTheDecodedCommand := by
  intro s f rest i hreset hfault hcommands hdecode
  obtain ⟨-, hok⟩ := Exceptions.step_running hreset hfault hcommands
  exact hok i hdecode

/-- Settles O43: every host action but reset, and a halted unit's step, changes streams alone. -/
theorem onlyResetLeavesTheHalt : Obligations.OnlyResetLeavesTheHalt := by
  intro s hfault
  refine ⟨fun w => ⟨hfault, rfl⟩, ?_, fun f => ⟨hfault, rfl⟩, fun r t ht => ?_, fun t hreset hstep => ?_, rfl, rfl⟩
  · rcases endFrame_cases (s := s) with ⟨-, h⟩ | ⟨hdr, pay, -, h⟩
    all_goals rw [h]; exact ⟨hfault, rfl⟩
  · rcases receive_cases (s := s) with ⟨-, h⟩ | ⟨r', rest, -, h⟩
    · cases ht.symm.trans h
    · cases ht.symm.trans h
      exact ⟨hfault, rfl⟩
  · cases hstep.symm.trans (Exceptions.step_halted hreset hfault)
    exact ⟨hfault, rfl⟩

/-- Settles O44: reset forgets the state before it, and a step with the input asserted resets again. -/
theorem resetLeavesTheStatedValues : Obligations.ResetLeavesTheStatedValues := by
  refine ⟨⟨rfl, rfl, rfl, rfl, rfl, rfl, rfl, rfl, rfl⟩, fun s => ⟨releaseReset_assertReset, fun hheld => ?_⟩⟩
  rcases step_cases s with ⟨-, h⟩ | ⟨hr, -⟩ | ⟨-, -, hr, -⟩
  · exact h
  · cases hheld.symm.trans hr
  · cases hheld.symm.trans hr

/-- A step with no frame waiting (log entry 7). -/
theorem step_idle {s : State} (hreset : s.resetLine = false) (hcommands : s.commands = []) : step s = .next s := by
  rcases step_cases s with ⟨hr, -⟩ | ⟨-, -, h⟩ | ⟨f, rest, -, hc, -⟩
  · cases hreset.symm.trans hr
  · exact h
  · cases hcommands.symm.trans hc

/-- Settles O45, by induction on the number of steps: each leaves the state idle. -/
theorem idleUnitHoldsItsState : Obligations.IdleUnitHoldsItsState := by
  intro n s hreset hcommands
  induction n with
  | zero => rfl
  | succ n ih => rw [run_succ n (step_idle hreset hcommands), ih]

end Sys2Proof.Proofs.HostActions
end
